-- ==== Sys2Proof/Word.lean ====
section
/-! DEFINITION. The bit vector types of B32CORE (spec/00_scope.md R7 to R9, spec/10_state.md R25).
Every quantity is an unsigned integer of a stated width, bit 0 the least significant (R9). A character code of the
decoder is `CW` bits wide and `CW` is a parameter of the build, so it is a `Nat` with the bound stated beside it
(`Instr.wf`, `DecBeat.wf`). -/

namespace Sys2Proof

/-- A byte of a message, or an 8-bit character code on `ENC_OUT` (R7 `BYTEW`, R51). -/
abbrev Byte := BitVec 8

/-- A 5-bit symbol value 0 to 31 (R7 `SYMW`). -/
abbrev SymVal := BitVec 5

/-- An accumulator register, `ACCW` = 12 bits (R8, R28, R33). -/
abbrev Acc := BitVec 12

/-- A bit count register, `BITSW` = 4 bits (R8, R29, R34). -/
abbrev BitCount := BitVec 4

/-- The encoder's output count modulo 8, `OCNTW` = 3 bits (R8, R30). -/
abbrev OutCount := BitVec 3

end Sys2Proof
end

