-- ==== Sys2Proof/Config.lean ====
section
/-! DEFINITION. What an implementation fixes at build time: the character width `CW` (spec/00_scope.md R8,
spec/92_eei_decisions.md D11), the spec's one open parameter. The spec leaves no value of the machine undefined, so
there is no free value here. -/

namespace Sys2Proof

/-- The build-time configuration. `CW` is any integer `>= 8` (R8), so it is held as the number of bits above 8:
every `Config` is a legal one, and a claim over all configurations is a claim over every `CW >= 8`. -/
structure Config where
  /-- `CW - 8` -/
  extraBits : Nat
  deriving DecidableEq, Repr

/-- `CW`, the width of a character code on `DEC_IN` and of `VAL` on `DEC_OUT` (R8, R78). -/
def Config.cw (cfg : Config) : Nat := 8 + cfg.extraBits

/-- The configuration `CW = 8`, the one for which spec/opcode_table.json writes its patterns.
DESIGN CHOICE (log entry 1): the model's `State.reset` is built with it. -/
def Config.cw8 : Config := ⟨0⟩

/-- The configuration `CW = 9`, which the vectors of spec/95_test_vectors.md use for codes above 255. -/
def Config.cw9 : Config := ⟨1⟩

end Sys2Proof
end

