-- ==== Sys2Proof/Syntax.lean ====
section
/-! DEFINITION. The instructions and the beats of B32CORE (spec/30_encoding.md). An instruction is one input beat
accepted on an engine's input port (spec/00_scope.md R4); the four of spec/opcode_table.json are the whole set (R76). -/

namespace Sys2Proof

/-- The two alphabets (R1): `std` is `Standard`, select value 0; `hex` is `ExtendedHex`, select value 1 (R71, D17). -/
inductive Alph where
  | std
  | hex
  deriving DecidableEq, Repr

/-- The two engines' port pairs (R70): `enc` is `ENC_IN`/`ENC_OUT`, `dec` is `DEC_IN`/`DEC_OUT`. The port is part of
an instruction's opcode (R76). -/
inductive Port where
  | enc
  | dec
  deriving DecidableEq, Repr

/-- The instruction set, one constructor per row of spec/opcode_table.json. The fields are ALL the bits of the beat
word that the opcode does not fix, the ignored ones too (R77), so that words and instructions correspond one to one. -/
inductive Instr where
  /-- `ENC.PUT a, d` (R97): encode one more byte. -/
  | encPut (a : Alph) (d : Byte)
  /-- `ENC.END a` (R98): close the message. `x` is the ignored `DATA` field. -/
  | encEnd (a : Alph) (x : Byte)
  /-- `DEC.PUT a, c` (R118): decode one more character. -/
  | decPut (a : Alph) (c : Nat)
  /-- `DEC.END a` (R119): close the message. `x` is the ignored `CHAR` field. -/
  | decEnd (a : Alph) (x : Nat)
  deriving DecidableEq, Repr

/-- The port an instruction arrives on (R76). -/
def Instr.port : Instr → Port
  | .encPut _ _ => .enc
  | .encEnd _ _ => .enc
  | .decPut _ _ => .dec
  | .decEnd _ _ => .dec

/-- An input beat word on its port: 10 bits on `ENC_IN` (R71), a number below `2^(CW+2)` on `DEC_IN` (R72). -/
inductive InWord where
  | enc (w : BitVec 10)
  | dec (w : Nat)
  deriving DecidableEq, Repr

/-- The port a word stands on. -/
def InWord.port : InWord → Port
  | .enc _ => .enc
  | .dec _ => .dec

/-- An output beat of `ENC_OUT` (R73). -/
inductive EncBeat where
  /-- `SYM c`: one character of the encoded string. -/
  | sym (c : Byte)
  /-- `END`: the encoded string is complete. -/
  | endMsg
  deriving DecidableEq, Repr

/-- An output beat of `DEC_OUT` (R74, R87). -/
inductive DecBeat where
  /-- `BYTE b`: one decoded byte, tentative until the closing beat (R124). -/
  | byte (b : Byte)
  /-- `END OK`: the message decoded. -/
  | endOk
  /-- `END ERR c`: `InvalidCharacter`, naming the offending character code. -/
  | endErr (c : Nat)
  deriving DecidableEq, Repr

end Sys2Proof
end

