-- ==== Sys2Proof/WellFormed.lean ====
section
/-! DEFINITION. The checks on syntax: that a `CW`-bit field holds a number of `CW` bits (spec/30_encoding.md R72, R74).
All other fields have the exact width in their type, and no encoding is reserved (R77), so there is nothing else to check. -/

namespace Sys2Proof

/-- `CHAR` is an unsigned `CW`-bit value, 0 to `2^CW - 1` (R75). -/
def Instr.wf (cfg : Config) : Instr → Bool
  | .encPut _ _ => true
  | .encEnd _ _ => true
  | .decPut _ c => decide (c < 2 ^ cfg.cw)
  | .decEnd _ x => decide (x < 2 ^ cfg.cw)

/-- A word has the width of its port: `CW + 2` bits on `DEC_IN` (R70). -/
def InWord.fits (cfg : Config) : InWord → Bool
  | .enc _ => true
  | .dec w => decide (w < 2 ^ (cfg.cw + 2))

/-- `VAL` of an output beat is a `CW`-bit value (R74). -/
def DecBeat.wf (cfg : Config) : DecBeat → Bool
  | .byte _ => true
  | .endOk => true
  | .endErr c => decide (c < 2 ^ cfg.cw)

end Sys2Proof
end

