-- ==== Sys2Proof/Decode.lean ====
section
/-! DEFINITION. Beat words to instructions and back, and output beats to words (spec/30_encoding.md R70 to R79).
Every 10-bit word on `ENC_IN` and every `(CW+2)`-bit word on `DEC_IN` is a legal instruction (R77). The one thing that
is rejected, by name, is a number that is no word of the port because it needs more than `CW + 2` bits (log entry 8). -/

namespace Sys2Proof

/-- Why a number is not a beat word. -/
inductive DecodeError where
  /-- The number has a bit above the port's `CW + 2` bits (R70). -/
  | wordWiderThanPort
  deriving DecidableEq, Repr

/-- `ALPH`: 0 is `Standard`, 1 is `ExtendedHex` (R71). -/
def Alph.ofBit : Bool → Alph
  | false => .std
  | true => .hex

/-- The `ALPH` bit of an alphabet (R71). -/
def Alph.toBit : Alph → Bool
  | .std => false
  | .hex => true

/-- Format `ENC_IN` (R71): bit 9 `END`, bit 8 `ALPH`, bits 7:0 `DATA`; opcode map R76. -/
def decodeEncIn (w : BitVec 10) : Instr :=
  let a := Alph.ofBit (w.getLsbD 8)
  let d : Byte := w.extractLsb' 0 8
  if w.getLsbD 9 then .encEnd a d else .encPut a d

/-- Format `DEC_IN` (R72): bit `CW+1` `END`, bit `CW` `ALPH`, bits `CW-1:0` `CHAR`; opcode map R76. -/
def decodeDecIn (cfg : Config) (w : Nat) : Except DecodeError Instr :=
  if w < 2 ^ (cfg.cw + 2) then
    let a := Alph.ofBit (w.testBit cfg.cw)
    let c : Nat := w % 2 ^ cfg.cw
    .ok (if w.testBit (cfg.cw + 1) then .decEnd a c else .decPut a c)
  else
    .error .wordWiderThanPort

/-- The decoder: the port selects the format (R70), `END` the instruction (R76). -/
def decode (cfg : Config) : InWord → Except DecodeError Instr
  | .enc w => .ok (decodeEncIn w)
  | .dec w => decodeDecIn cfg w

/-- An `ENC_IN` word from its fields (R71). -/
def encodeEncIn (isEnd : Bool) (a : Alph) (d : Byte) : BitVec 10 :=
  (BitVec.ofBool isEnd ++ BitVec.ofBool a.toBit) ++ d

/-- A `DEC_IN` word from its fields: `END * 2^(CW+1) + ALPH * 2^CW + CHAR` (R79). -/
def encodeDecIn (cfg : Config) (isEnd : Bool) (a : Alph) (c : Nat) : Nat :=
  isEnd.toNat * 2 ^ (cfg.cw + 1) + a.toBit.toNat * 2 ^ cfg.cw + c

/-- The encoder: the beat word of an instruction (R71, R72, R76). -/
def encode (cfg : Config) : Instr → InWord
  | .encPut a d => .enc (encodeEncIn false a d)
  | .encEnd a x => .enc (encodeEncIn true a x)
  | .decPut a c => .dec (encodeDecIn cfg false a c)
  | .decEnd a x => .dec (encodeDecIn cfg true a x)

/-- The `ENC_OUT` word of a beat (R73): `0x000 + c` or `0x100`. -/
def EncBeat.toWord : EncBeat → BitVec 9
  | .sym c => c.setWidth 9
  | .endMsg => 0x100

/-- The beat of an `ENC_OUT` word (R73). `SYM` is ignored when `END = 1`, as a consumer should (U14). -/
def EncBeat.ofWord (w : BitVec 9) : EncBeat :=
  if w.getLsbD 8 then .endMsg else .sym (w.extractLsb' 0 8)

/-- The `DEC_OUT` word of a beat (R74): `END` at bit `CW+1`, `STATUS` at bit `CW`, `VAL` below; status codes R87. -/
def DecBeat.toWord (cfg : Config) : DecBeat → Nat
  | .byte b => b.toNat
  | .endOk => 2 ^ (cfg.cw + 1)
  | .endErr c => 2 ^ (cfg.cw + 1) + 2 ^ cfg.cw + c

/-- The beat of a `DEC_OUT` word (R74). `VAL` is ignored when `END = 1` and `STATUS = 0`, as a consumer should (U14). -/
def DecBeat.ofWord (cfg : Config) (w : Nat) : DecBeat :=
  if w.testBit (cfg.cw + 1) then
    if w.testBit cfg.cw then .endErr (w % 2 ^ cfg.cw) else .endOk
  else
    .byte (BitVec.ofNat 8 w)

/-- The input word that the host's table numbering names. spec/opcode_table.json gives the 10 bits of a beat word
(`CW = 8`), and the words of the `ENC_IN` rows and of the `DEC_IN` rows are THE SAME NUMBERS: the port is the rest of
the opcode (R76) and no bit of the word. DESIGN CHOICE (log entry 7): the bits above the word, up to `nbits`, name the
port, 0 for `ENC_IN` and 1 for `DEC_IN`, so a bare table word is read on `ENC_IN`. -/
def tableWord (nbits w : Nat) : Option InWord :=
  let v := w % 2 ^ nbits
  match v / 1024 with
  | 0 => some (.enc (BitVec.ofNat 10 v))
  | 1 => some (.dec (v % 1024))
  | _ => none

/-- The instruction the decoder reads from a word of spec/opcode_table.json (`CW = 8`, see `tableWord`). -/
def decodeTableWord (nbits w : Nat) : Option Instr :=
  match tableWord nbits w with
  | none => none
  | some word =>
    match decode Config.cw8 word with
    | .ok i => some i
    | .error _ => none

end Sys2Proof
end

