-- ==== Sys2Proof/Machine/State.lean ====
section
/-! DEFINITION. The state of B32CORE: the ten registers of spec/10_state.md R25, which are all the state of the block
(R20), and beside them, as plain data, what stands at its four ports: the words the host has presented, whether the
consumer of each output accepts beats, the streams emitted, and the list of moves that says what happens next. The
port fields are the model's (log entries 2 to 6): the spec gives them to the host (R20, R56). -/

namespace Sys2Proof.Machine

/-- `DEC.ST` (R31): three values; the 2-bit code 3 is no state (R212, U12). -/
inductive DecPhase where
  /-- no message open -/
  | idle
  /-- a message is open and no invalid character has been found in it -/
  | run
  /-- the failure has been reported; the rest of the message is being swallowed -/
  | skip
  deriving DecidableEq, Repr

/-- The encoder engine's five registers (R26 to R30). -/
structure EncRegs where
  /-- `ENC.BUSY`: a message is open (R26) -/
  busy : Bool
  /-- `ENC.ALPH`: the open message's alphabet (R27) -/
  alph : Alph
  /-- `ENC.ACC`: residue bits not yet emitted (R28) -/
  acc : Acc
  /-- `ENC.BITS`: how many residue bits `ACC` holds (R29) -/
  bits : BitCount
  /-- `ENC.OCNT`: characters emitted in this message, modulo 8 (R30) -/
  ocnt : OutCount
  deriving DecidableEq, Repr

/-- The decoder engine's five registers (R31 to R35). -/
structure DecRegs where
  /-- `DEC.ST`: the phase (R31) -/
  st : DecPhase
  /-- `DEC.ALPH`: the open message's alphabet (R32) -/
  alph : Alph
  /-- `DEC.ACC`: residue bits not yet emitted (R33) -/
  acc : Acc
  /-- `DEC.BITS`: how many residue bits `ACC` holds (R34) -/
  bits : BitCount
  /-- `DEC.PADP`: a pad character is pending (R35) -/
  padp : Bool
  deriving DecidableEq, Repr

/-- The encoder's idle state, which is its reset state (R45, R46). -/
def EncRegs.idle : EncRegs := ⟨false, .std, 0, 0, 0⟩

/-- The decoder's idle state, which is its reset state (R45, R46). -/
def DecRegs.idle : DecRegs := ⟨.idle, .std, 0, 0, false⟩

/-- What can happen next, as the host and the two engines' order decide it (R239, R57; log entry 2). -/
inductive Move where
  /-- The host presents a word on an input port (R239); it waits there until the engine accepts it. -/
  | present (w : InWord)
  /-- It is this engine's turn: it accepts the oldest word waiting on its port, if it is not stalled (R56, R58). -/
  | accept (p : Port)
  /-- The consumer of this engine's output port starts (`true`) or stops (`false`) accepting beats (R237). -/
  | ready (p : Port) (b : Bool)
  /-- The reset event (R220, R221). -/
  | reset
  deriving DecidableEq, Repr

/-- The machine's state. -/
structure State where
  /-- the build-time parameter `CW` (R8); no step writes it -/
  cfg : Config
  /-- the encoder's registers -/
  enc : EncRegs
  /-- the decoder's registers -/
  dec : DecRegs
  /-- words presented on `ENC_IN` and not yet accepted, oldest first (R56) -/
  encIn : List (BitVec 10)
  /-- words presented on `DEC_IN` and not yet accepted, oldest first (R56) -/
  decIn : List Nat
  /-- the consumer of `ENC_OUT` accepts beats (R237) -/
  encReady : Bool
  /-- the consumer of `DEC_OUT` accepts beats (R237) -/
  decReady : Bool
  /-- the `ENC_OUT` stream: all beats emitted since reset, oldest first (R56) -/
  encOut : List EncBeat
  /-- the `DEC_OUT` stream: all beats emitted since reset, oldest first (R56) -/
  decOut : List DecBeat
  /-- the `ENC_OUT` streams that earlier reset events cut off, oldest first (R222, R223) -/
  encPast : List (List EncBeat)
  /-- the `DEC_OUT` streams that earlier reset events cut off, oldest first (R222, R223) -/
  decPast : List (List DecBeat)
  /-- what happens next, in order (R57); when it is empty the engines go on by themselves (R237) -/
  moves : List Move
  deriving DecidableEq, Repr

/-- The reasons a step ends in a fault: there are none. `InvalidCharacter` is a defined result, and nothing in the
block is a fault or a stuck state (R212), so nothing raises one; having no constructor is safe and exact. -/
inductive Fault where
  deriving DecidableEq, Repr

/-- The reasons a step is refused. -/
inductive Refusal where
  /-- Raised by an arm of `exec` whose instruction has no meaning yet. Safe. No arm raises it now. -/
  | notModelled (mnemonic : String)
  /-- Raised by `step` when the number waiting on `DEC_IN` needs more than `CW + 2` bits: no such word exists on the
  port (R70), so no behaviour of the hardware is left out. Safe (log entry 8). -/
  | wordWiderThanPort
  deriving DecidableEq, Repr

/-- The machine right after reset, built with configuration `cfg` (R45): every register at the value of R25's "reset"
column. The ports are empty, both consumers accept, and no move is listed (DESIGN CHOICE, log entry 3). -/
def State.resetWith (cfg : Config) : State where
  cfg := cfg
  enc := .idle
  dec := .idle
  encIn := []
  decIn := []
  encReady := true
  decReady := true
  encOut := []
  decOut := []
  encPast := []
  decPast := []
  moves := []

/-- The machine right after reset (R45), with `CW = 8` (log entry 1). -/
def State.reset : State := State.resetWith Config.cw8

end Sys2Proof.Machine
end

