-- ==== Sys2Proof/Machine/Operands.lean ====
section
/-! DEFINITION. The alphabet tables and the lookup mux (spec/42_alphabet_lookup.md, spec/20_memory.md R50 to R53): the
two read-only spaces `FWD` and `REV`, which are constants and no state (R36, R224), and the two lookup functions that
are the block's only reads of them. Character codes are those of R136 (log entry 12). -/

namespace Sys2Proof.Machine

/-- The pad character `=`, code `0x3D`, the same for both alphabets (R151). -/
def padCode : Byte := 0x3D

/-- `PAD` as a `CW`-bit character code: `0x3D` zero-extended (R151, R162). -/
def padChar : Nat := padCode.toNat

/-- Space `FWD`, 64 entries of 8 bits, address `{a, v}` (R51), contents R137: the table's "code" columns. -/
def fwdTable : Alph → Vector Byte 32
  | .std =>
    #v[0x41, 0x42, 0x43, 0x44, 0x45, 0x46, 0x47, 0x48,   -- A B C D E F G H
       0x49, 0x4A, 0x4B, 0x4C, 0x4D, 0x4E, 0x4F, 0x50,   -- I J K L M N O P
       0x51, 0x52, 0x53, 0x54, 0x55, 0x56, 0x57, 0x58,   -- Q R S T U V W X
       0x59, 0x5A, 0x32, 0x33, 0x34, 0x35, 0x36, 0x37]   -- Y Z 2 3 4 5 6 7
  | .hex =>
    #v[0x30, 0x31, 0x32, 0x33, 0x34, 0x35, 0x36, 0x37,   -- 0 1 2 3 4 5 6 7
       0x38, 0x39, 0x41, 0x42, 0x43, 0x44, 0x45, 0x46,   -- 8 9 A B C D E F
       0x47, 0x48, 0x49, 0x4A, 0x4B, 0x4C, 0x4D, 0x4E,   -- G H I J K L M N
       0x4F, 0x50, 0x51, 0x52, 0x53, 0x54, 0x55, 0x56]   -- O P Q R S T U V

/-- `FwdLookup(a, v) = FWD[a][v]`, total (R137). -/
def fwdLookup (a : Alph) (v : SymVal) : Byte := (fwdTable a)[v.toNat]'v.isLt

/-- The 32 symbol values in order, 0 to 31. -/
def symVals : List SymVal := (List.range 32).map (BitVec.ofNat 5)

/-- `REV[a][c]` (R139), built from `FWD` as the source builds it: the position at which the forward table holds `c`,
or `INVALID` (`none`, R147) where it holds it nowhere. -/
def revEntry (a : Alph) (c : Byte) : Option SymVal := symVals.find? fun v => fwdLookup a v == c

/-- Space `REV`, 256 entries for each alphabet, address `{a, c}` (R52, R139). -/
def revTable (a : Alph) : List (Option SymVal) := (List.range 256).map fun c => revEntry a (BitVec.ofNat 8 c)

/-- `RevLookup(a, c)` (R146): a code above 255 is `INVALID` without a read of the table (R52), and its upper bits are
never dropped before the comparison. -/
def revLookup (a : Alph) (c : Nat) : Option SymVal :=
  if 255 < c then none else revEntry a (BitVec.ofNat 8 c)

/-- The low `k` bits of an accumulator, `ACC mod 2^k` (R93, R115). -/
def lowBits (x : Acc) (k : Nat) : Acc := BitVec.ofNat 12 (x.toNat % 2 ^ k)

end Sys2Proof.Machine
end

