-- ==== Sys2Proof/Machine/Flags.lean ====
section
/-! DEFINITION. The conditions the datapath evaluates (spec/10_state.md R41). B32CORE has no flags register and stores
none of them; the one-bit and phase registers `ENC.BUSY`, `DEC.ST` and `DEC.PADP` are fields of the engines. -/

namespace Sys2Proof.Machine

/-- `BITS >= 5`: the encoder holds a whole symbol (R97). -/
def encHasSymbol (e : EncRegs) : Bool := decide (5 ≤ e.bits.toNat)

/-- `BITS > 0`: the encoder holds a residue (R98). -/
def encHasResidue (e : EncRegs) : Bool := decide (0 < e.bits.toNat)

/-- `OCNT != 0`: the encoded string is not yet a multiple of 8 characters long (R152). -/
def encNeedsPad (e : EncRegs) : Bool := decide (e.ocnt ≠ 0)

/-- `BITS >= 8`: the decoder holds a whole byte (R118). -/
def decHasByte (d : DecRegs) : Bool := decide (8 ≤ d.bits.toNat)

/-- `CHAR = PAD`, over all `CW` bits (R162). -/
def isPad (c : Nat) : Bool := decide (c = padChar)

end Sys2Proof.Machine
end

