-- ==== Sys2Proof/Machine/Ops.lean ====
section
/-! DEFINITION. The micro-operations out of which the four instructions are built (spec/40_encoder.md R91 to R96,
spec/41_decoder.md R111 to R121, spec/43_padding.md R152 to R157), each on its own engine's registers and with the
beats it emits; the delivery of a burst to an output stream (spec/20_memory.md R56); and the reset event
(spec/70_reset_and_hazards.md R221). A micro-operation's precondition, where the spec gives one, holds in every
reachable state (R37, R38); log entry 9 says what these definitions do outside it. -/

namespace Sys2Proof.Machine

/-! ## The encoder (R91 to R96, R152) -/

/-- `ENC.LATCH(a)` (R91): the first beat of a message opens it and chooses its alphabet; later beats' `a` is ignored. -/
def encLatch (a : Alph) (e : EncRegs) : EncRegs :=
  if e.busy then e else { e with alph := a, busy := true }

/-- `ENC.ABSORB(d)` (R92): `ACC <- ((ACC << 8) | d) mod 2^12`, `BITS <- BITS + 8`. -/
def encAbsorb (d : Byte) (e : EncRegs) : EncRegs :=
  { e with acc := (e.acc <<< 8) ||| d.setWidth 12, bits := e.bits + 8 }

/-- `ENC.EMIT` (R93): the top five valid bits leave as one symbol, and are dropped from the accumulator. -/
def encEmit (e : EncRegs) : EncRegs × EncBeat :=
  let v : SymVal := (e.acc >>> (e.bits.toNat - 5)).setWidth 5
  ({ e with
      bits := e.bits - 5
      ocnt := e.ocnt + 1
      acc := lowBits e.acc (e.bits - 5).toNat },
    .sym (fwdLookup e.alph v))

/-- `while BITS >= 5 do ENC.EMIT` (R97), at most `fuel` times. -/
def encEmitLoop : Nat → EncRegs → EncRegs × List EncBeat
  | 0, e => (e, [])
  | fuel + 1, e =>
    if encHasSymbol e then
      let one := encEmit e
      let rest := encEmitLoop fuel one.1
      (rest.1, one.2 :: rest.2)
    else (e, [])

/-- The whole loop of R97. A 4-bit count holds at most three symbols, so three rounds are enough in every state
(`encEmitLoop_ends`). -/
def encEmitAll (e : EncRegs) : EncRegs × List EncBeat := encEmitLoop 3 e

/-- `ENC.FINAL` (R94): the residue leaves as one last symbol, left-aligned, zero bits below. -/
def encFinal (e : EncRegs) : EncRegs × EncBeat :=
  let v : SymVal := (e.acc <<< (5 - e.bits.toNat)).setWidth 5
  ({ e with ocnt := e.ocnt + 1, bits := 0, acc := 0 }, .sym (fwdLookup e.alph v))

/-- `if BITS > 0 then ENC.FINAL` (R98). -/
def encFlush (e : EncRegs) : EncRegs × List EncBeat :=
  if encHasResidue e then
    let one := encFinal e
    (one.1, [one.2])
  else (e, [])

/-- `while OCNT != 0 do emit SYM PAD` (R152), at most `fuel` times. -/
def encPadLoop : Nat → EncRegs → EncRegs × List EncBeat
  | 0, e => (e, [])
  | fuel + 1, e =>
    if encNeedsPad e then
      let rest := encPadLoop fuel { e with ocnt := e.ocnt + 1 }
      (rest.1, .sym padCode :: rest.2)
    else (e, [])

/-- `ENC.PADOUT` (R152). A count modulo 8 is 0 again after at most seven rounds (`encPadLoop_ends`). -/
def encPadOut (e : EncRegs) : EncRegs × List EncBeat := encPadLoop 7 e

/-- `ENC.CLOSE` (R96): emit `END` and return to idle. It writes all five registers. -/
def encClose (e : EncRegs) : EncRegs × EncBeat :=
  ({ e with busy := false, alph := .std, acc := 0, bits := 0, ocnt := 0 }, .endMsg)

/-! ## The decoder (R111 to R117, R155 to R157) -/

/-- `DEC.LATCH(a)` (R111): the first beat of a message opens it and chooses its alphabet; later beats' `a` is ignored. -/
def decLatch (a : Alph) (d : DecRegs) : DecRegs :=
  match d.st with
  | .idle => { d with alph := a, st := .run }
  | .run => d
  | .skip => d

/-- `DEC.LOOKUP(c)` (R113): the character's value in the open message's alphabet, or `INVALID`. -/
def decLookup (c : Nat) (d : DecRegs) : Option SymVal := revLookup d.alph c

/-- `DEC.ABSORB(v)` (R114): `ACC <- ((ACC << 5) | v) mod 2^12`, `BITS <- BITS + 5`. -/
def decAbsorb (v : SymVal) (d : DecRegs) : DecRegs :=
  { d with acc := (d.acc <<< 5) ||| v.setWidth 12, bits := d.bits + 5 }

/-- `DEC.EXTRACT` (R115): the top eight valid bits leave as one byte, and are dropped from the accumulator. -/
def decExtract (d : DecRegs) : DecRegs × DecBeat :=
  let b : Byte := (d.acc >>> (d.bits.toNat - 8)).setWidth 8
  ({ d with
      bits := d.bits - 8
      acc := lowBits d.acc (d.bits - 8).toNat },
    .byte b)

/-- `if BITS >= 8 then DEC.EXTRACT` (R118). -/
def decDrain (d : DecRegs) : DecRegs × List DecBeat :=
  if decHasByte d then
    let one := decExtract d
    (one.1, [one.2])
  else (d, [])

/-- `DEC.DISCARD` (R116): the residue is lost, unexamined. -/
def decDiscard (d : DecRegs) : DecRegs := { d with acc := 0, bits := 0 }

/-- `DEC.CLOSE` (R117): emit `END OK`; `ST` and `ALPH` return to idle. -/
def decClose (d : DecRegs) : DecRegs × DecBeat := ({ d with st := .idle, alph := .std }, .endOk)

/-- `DEC.PADDEFER` (R155): a pad character sets `PADP` and does nothing else. -/
def decPadDefer (d : DecRegs) : DecRegs × List DecBeat := ({ d with padp := true }, [])

/-- `DEC.PADDROP` (R157): pad characters pending at the end of the message were trailing. -/
def decPadDrop (d : DecRegs) : DecRegs := { d with padp := false }

/-- `DEC.SWALLOW` (R120): in `SKIP` a character changes nothing and emits nothing. -/
def decSwallow (d : DecRegs) : DecRegs × List DecBeat := (d, [])

/-! ## Taking the exception and returning from it (R121, R201, R204) -/

/-- TAKING THE EXCEPTION: `DEC.FAIL(x)`, `raise InvalidCharacter(x)` (R121, R201). The offending character goes out in
`END ERR x`, the engine enters `SKIP`, the residue and the pending pad are cleared; `ALPH` keeps its value. -/
def decFail (x : Nat) (d : DecRegs) : DecRegs × List DecBeat :=
  ({ d with st := .skip, acc := 0, bits := 0, padp := false }, [.endErr x])

/-- `DEC.PADBREAK` (R156): a pad character was not trailing; the failure names `PAD`. -/
def decPadBreak (d : DecRegs) : DecRegs × List DecBeat := decFail padChar d

/-- RETURNING FROM THE EXCEPTION: `DEC.END` in `SKIP` (R119, R204): `ST` and `ALPH` return to idle, nothing is emitted.
It writes no other register (`DEC.FAIL` has cleared them). -/
def decReturn (d : DecRegs) : DecRegs × List DecBeat := ({ d with st := .idle, alph := .std }, [])

/-! ## Delivery of bursts, and reset -/

/-- An encoder step's outcome: its registers, and its burst at the end of the `ENC_OUT` stream (R56, R58). -/
def State.encDeliver (s : State) (r : EncRegs × List EncBeat) : State :=
  { s with enc := r.1, encOut := s.encOut ++ r.2 }

/-- A decoder step's outcome: its registers, and its burst at the end of the `DEC_OUT` stream (R56, R58). -/
def State.decDeliver (s : State) (r : DecRegs × List DecBeat) : State :=
  { s with dec := r.1, decOut := s.decOut ++ r.2 }

/-- The reset event (R221 to R223): every register at its reset value, nothing emitted, an input word that no engine
has accepted is not processed (log entry 5), the beats emitted so far stay emitted and the streams are cut. -/
def State.resetEvent (s : State) : State :=
  { s with
    enc := .idle
    dec := .idle
    encIn := []
    decIn := []
    encOut := []
    decOut := []
    encPast := s.encPast ++ [s.encOut]
    decPast := s.decPast ++ [s.decOut] }

/-- The host presents a word: it waits at the end of its port's queue (R56). -/
def State.present (s : State) : InWord → State
  | .enc w => { s with encIn := s.encIn ++ [w] }
  | .dec w => { s with decIn := s.decIn ++ [w] }

/-- The consumer of an output port starts or stops accepting beats (R237). -/
def State.setReady (s : State) (b : Bool) : Port → State
  | .enc => { s with encReady := b }
  | .dec => { s with decReady := b }

/-- The beat an engine accepts at its turn (R56): the oldest word waiting on its input port, with that word taken off
the port. None where no word waits, and none while the engine stalls because the consumer of its output does not
accept beats (R237). -/
def State.fetch (s : State) : Port → Option (InWord × State)
  | .enc =>
    match s.encReady, s.encIn with
    | true, w :: ws => some (.enc w, { s with encIn := ws })
    | true, [] => none
    | false, _ => none
  | .dec =>
    match s.decReady, s.decIn with
    | true, w :: ws => some (.dec w, { s with decIn := ws })
    | true, [] => none
    | false, _ => none

/-- The beat accepted when the list of moves has no more to say (R237, R212: where a word waits and the output is taken,
the engine takes it). Between the engines there is no order (R57); the model lets ENC go first (log entry 2). -/
def State.fetchAny (s : State) : Option (InWord × State) :=
  match s.fetch .enc with
  | some r => some r
  | none => s.fetch .dec

/-- The words waiting on an input port, oldest first (R56). -/
def State.waiting (s : State) : Port → List InWord
  | .enc => s.encIn.map .enc
  | .dec => s.decIn.map .dec

/-- The consumer of an engine's output port accepts beats (R237). -/
def State.ready (s : State) : Port → Bool
  | .enc => s.encReady
  | .dec => s.decReady

end Sys2Proof.Machine
end

