-- ==== Sys2Proof/Machine/Decoder.lean ====
section
/-! DEFINITION. The decoder engine's two instructions (spec/41_decoder.md R118, R119). -/

namespace Sys2Proof.Machine

/-- `DEC.PUT` outside `SKIP`, after the latch (R118), its tests in the order of R112. -/
def decCharBeat (c : Nat) (d : DecRegs) : DecRegs × List DecBeat :=
  if isPad c then decPadDefer d
  else if d.padp then decPadBreak d
  else
    match decLookup c d with
    | none => decFail c d
    | some v => decDrain (decAbsorb v d)

/-- The rule of `DEC.PUT a, c` (R118) on the decoder's registers. -/
def decPutBeat (a : Alph) (c : Nat) (d : DecRegs) : DecRegs × List DecBeat :=
  match d.st with
  | .skip => decSwallow d
  | .idle => decCharBeat c (decLatch a d)
  | .run => decCharBeat c (decLatch a d)

/-- The rule of `DEC.END a` (R119) on the decoder's registers. -/
def decEndBeat (a : Alph) (d : DecRegs) : DecRegs × List DecBeat :=
  let close := decClose (decDiscard (decPadDrop (decLatch a d)))
  match d.st with
  | .skip => decReturn d
  | .idle => (close.1, [close.2])
  | .run => (close.1, [close.2])

/-- `DEC.PUT a, c` (R118). -/
def execDecPut (a : Alph) (c : Nat) (s : State) : Host.Outcome State Fault Refusal :=
  .next (s.decDeliver (decPutBeat a c s.dec))

/-- `DEC.END a` (R119). The `CHAR` field `_x` is ignored (R77). -/
def execDecEnd (a : Alph) (_x : Nat) (s : State) : Host.Outcome State Fault Refusal :=
  .next (s.decDeliver (decEndBeat a s.dec))

end Sys2Proof.Machine
end

