-- ==== Sys2Proof/Machine/Encoder.lean ====
section
/-! DEFINITION. The encoder engine's two instructions (spec/40_encoder.md R97, R98). Neither raises anything (R106). -/

namespace Sys2Proof.Machine

/-- The rule of `ENC.PUT a, d` (R97) on the encoder's registers: latch, absorb, emit while a whole symbol is held. -/
def encPutBeat (a : Alph) (d : Byte) (e : EncRegs) : EncRegs × List EncBeat :=
  encEmitAll (encAbsorb d (encLatch a e))

/-- The rule of `ENC.END a` (R98) on the encoder's registers, in the order of R95: last symbol, pads, `END`. -/
def encEndBeat (a : Alph) (e : EncRegs) : EncRegs × List EncBeat :=
  let final := encFlush (encLatch a e)
  let pads := encPadOut final.1
  let close := encClose pads.1
  (close.1, final.2 ++ pads.2 ++ [close.2])

/-- `ENC.PUT a, d` (R97). -/
def execEncPut (a : Alph) (d : Byte) (s : State) : Host.Outcome State Fault Refusal :=
  .next (s.encDeliver (encPutBeat a d s.enc))

/-- `ENC.END a` (R98). The `DATA` field `_x` is ignored (R77). -/
def execEncEnd (a : Alph) (_x : Byte) (s : State) : Host.Outcome State Fault Refusal :=
  .next (s.encDeliver (encEndBeat a s.enc))

end Sys2Proof.Machine
end

