-- ==== Sys2Proof/Machine/Dispatch.lean ====
section
/-! DEFINITION. One arm per instruction of spec/opcode_table.json. -/

namespace Sys2Proof.Machine

def exec (i : Instr) (s : State) : Host.Outcome State Fault Refusal :=
  match i with
  | .encPut a d => Sys2Proof.Machine.execEncPut a d s
  | .encEnd a x => Sys2Proof.Machine.execEncEnd a x s
  | .decPut a c => Sys2Proof.Machine.execDecPut a c s
  | .decEnd a x => Sys2Proof.Machine.execDecEnd a x s

end Sys2Proof.Machine
end

