-- ==== Sys2Proof/Machine/Step.lean ====
section
/-! DEFINITION. One step of the machine: the next move happens. An accepted beat is one atomic step of its engine, its
whole rule and its whole burst (spec/20_memory.md R58); reset comes between beats (spec/70_reset_and_hazards.md R223). -/

namespace Sys2Proof.Machine

/-- Run the word an engine has accepted. -/
def runWord (w : InWord) (s : State) : Host.Outcome State Fault Refusal :=
  match decode s.cfg w with
  | .ok i => exec i s
  | .error .wordWiderThanPort => .refused .wordWiderThanPort

/-- What follows an engine's turn in `s`: the beat it has taken is run, or nothing changes where it takes none. -/
def runTaken (s : State) : Option (InWord × State) → Host.Outcome State Fault Refusal
  | none => .next s
  | some (w, t) => runWord w t

/-- One step. At an engine's turn it accepts and runs the oldest word of its port (R56, R58); where no word waits or
the engine stalls (R237), the turn passes. With no move listed an engine that can take a beat takes it, so that a word
presented is accepted once the output is taken (R237); where neither can, the block waits with its state held (R210;
log entry 3). -/
def step (s : State) : Host.Outcome State Fault Refusal :=
  match s.moves with
  | [] => runTaken s s.fetchAny
  | .present w :: ms => .next (State.present { s with moves := ms } w)
  | .ready p b :: ms => .next (State.setReady { s with moves := ms } b p)
  | .reset :: ms => .next (State.resetEvent { s with moves := ms })
  | .accept p :: ms => runTaken { s with moves := ms } (State.fetch { s with moves := ms } p)

/-- `s` with the instruction of a word of spec/opcode_table.json (numbered as `tableWord` says) waiting first on its
port, in the port's own format for the machine's `CW`, its consumer ready and its engine's turn next: the very next
step accepts and runs it. Unchanged where `decodeTableWord` reads no instruction. -/
def State.withFetchWord (s : State) (nbits w : Nat) : State :=
  match decodeTableWord nbits w with
  | none => s
  | some i =>
    match encode s.cfg i with
    | .enc word => { s with encIn := word :: s.encIn, encReady := true, moves := .accept .enc :: s.moves }
    | .dec word => { s with decIn := word :: s.decIn, decReady := true, moves := .accept .dec :: s.moves }

end Sys2Proof.Machine
end

