-- ==== Sys2Proof/Machine/Message.lean ====
section
/-! DEFINITION. Whole messages (spec/44_message_operations.md): the source's two functions `Encode` (R165) and `Decode`
(R170), written from the source's algorithm with its unbounded accumulator and independently of the engines; the beat
sequences of a message (R179); running a beat sequence; and what a host observes of an output stream (R182). -/

namespace Sys2Proof.Machine

/-! ## Encode (R165) -/

/-- The inner loop of R165, `while bc >= 5`, at most `fuel` times: the characters appended, and the count left. -/
def drainSymbols (a : Alph) : Nat → Nat → Nat → List Byte × Nat
  | 0, _, bc => ([], bc)
  | fuel + 1, acc, bc =>
    if 5 ≤ bc then
      let rest := drainSymbols a fuel acc (bc - 5)
      (fwdLookup a (BitVec.ofNat 5 (acc >>> (bc - 5))) :: rest.1, rest.2)
    else ([], bc)

/-- The loop over the bytes of R165: the characters appended, and the accumulator and count at the end. -/
def encodeLoop (a : Alph) : Nat → Nat → List Byte → List Byte × Nat × Nat
  | acc, bc, [] => ([], acc, bc)
  | acc, bc, b :: bs =>
    let acc' := (acc <<< 8) ||| b.toNat
    let one := drainSymbols a (bc + 8) acc' (bc + 8)
    let rest := encodeLoop a acc' one.2 bs
    (one.1 ++ rest.1, rest.2)

/-- The unpadded part of `Encode(a, bs)`: the loop's characters and the left-aligned leftover bits (R165). -/
def encodeSyms (a : Alph) (bs : List Byte) : List Byte :=
  let r := encodeLoop a 0 0 bs
  let acc := r.2.1
  let bc := r.2.2
  if 0 < bc then r.1 ++ [fwdLookup a (BitVec.ofNat 5 (acc <<< (5 - bc)))] else r.1

/-- `Encode(a, bs)` (R165): pad characters are appended until the length is a multiple of 8. -/
def encodeMsg (a : Alph) (bs : List Byte) : List Byte :=
  let out := encodeSyms a bs
  out ++ List.replicate ((8 - out.length % 8) % 8) padCode

/-! ## Decode (R170, R171) -/

/-- The result of `Decode`: `Ok(bytes)`, or `Err(c)` with no partial result (R170, R182). -/
inductive DecResult where
  | ok (bs : List Byte)
  | err (c : Nat)
  deriving DecidableEq, Repr

/-- Put a byte in front of the bytes of a successful result; a failure keeps no bytes (R170). -/
def consByte (b : Byte) : DecResult → DecResult
  | .ok bs => .ok (b :: bs)
  | .err c => .err c

/-- `Strip(cs)`: all trailing pad characters removed (R171). -/
def strip (cs : List Nat) : List Nat := (cs.reverse.dropWhile isPad).reverse

/-- The loop of R170 over the stripped characters. -/
def decodeLoop (a : Alph) : Nat → Nat → List Nat → DecResult
  | _, _, [] => .ok []
  | acc, bc, c :: cs =>
    match revLookup a c with
    | none => .err c
    | some v =>
      let acc' := (acc <<< 5) ||| v.toNat
      if 8 ≤ bc + 5 then
        consByte (BitVec.ofNat 8 (acc' >>> (bc + 5 - 8))) (decodeLoop a acc' (bc + 5 - 8) cs)
      else decodeLoop a acc' (bc + 5) cs

/-- `Decode(a, cs)` (R170). -/
def decodeMsg (a : Alph) (cs : List Nat) : DecResult := decodeLoop a 0 0 (strip cs)

/-! ## Messages as beats (R179), and running them -/

/-- `EncBeats(a, bs)` (R179). -/
def encBeats (a : Alph) (bs : List Byte) : List Instr := bs.map (.encPut a) ++ [.encEnd a 0]

/-- `DecBeats(a, cs)` (R179). -/
def decBeats (a : Alph) (cs : List Nat) : List Instr := cs.map (.decPut a) ++ [.decEnd a 0]

/-- The beats of an encoder message in which every beat has an `ALPH` field of its own, and the `END` beat any `DATA`
(R180: the `ALPH` fields of beats other than the first may be anything). -/
def encBeatsMixed (ps : List (Alph × Byte)) (aEnd : Alph) (x : Byte) : List Instr :=
  ps.map (fun p => .encPut p.1 p.2) ++ [.encEnd aEnd x]

/-- The beats of a decoder message in which every beat has an `ALPH` field of its own, and the `END` beat any `CHAR`. -/
def decBeatsMixed (ps : List (Alph × Nat)) (aEnd : Alph) (x : Nat) : List Instr :=
  ps.map (fun p => .decPut p.1 p.2) ++ [.decEnd aEnd x]

/-- The `ALPH` field of a message's first beat, which is its `END` beat when it has no other (R105, R129). -/
def firstAlph {α : Type} (ps : List (Alph × α)) (aEnd : Alph) : Alph :=
  match ps with
  | [] => aEnd
  | p :: _ => p.1

/-- Run a sequence of instructions, each to completion before the next (R56), stopping at the first fault or refusal. -/
def execAll : List Instr → State → Host.Outcome State Fault Refusal
  | [], s => .next s
  | i :: is, s =>
    match exec i s with
    | .next t => execAll is t
    | .fault r => .fault r
    | .refused r => .refused r

/-- `n` steps, stopping at the first fault or refusal (`run_eq_core_run`: the host's `Host.Core.run`). -/
def run : Nat → State → Host.Outcome State Fault Refusal
  | 0, s => .next s
  | n + 1, s =>
    match step s with
    | .next t => run n t
    | .fault r => .fault r
    | .refused r => .refused r

/-- The host's moves that put a sequence of instructions through the ports: each word is presented and then accepted. -/
def hostMoves (cfg : Config) (is : List Instr) : List Move :=
  is.flatMap fun i => [.present (encode cfg i), .accept i.port]

/-! ## What a host observes (R182) -/

/-- Cut an `ENC_OUT` stream after every `END`: the results of its complete output messages. `cur` holds the characters
of the message being read; a piece with no closing beat has no result (R183). -/
def encResultsFrom (cur : List Byte) : List EncBeat → List (List Byte)
  | [] => []
  | .sym c :: bs => encResultsFrom (cur ++ [c]) bs
  | .endMsg :: bs => cur :: encResultsFrom [] bs

/-- The results of the complete output messages of an `ENC_OUT` stream, in order (R182). -/
def encResults (out : List EncBeat) : List (List Byte) := encResultsFrom [] out

/-- Cut a `DEC_OUT` stream after every closing beat: `END OK` makes the tentative bytes the result, `END ERR` voids
them (R124, R182). -/
def decResultsFrom (cur : List Byte) : List DecBeat → List DecResult
  | [] => []
  | .byte b :: bs => decResultsFrom (cur ++ [b]) bs
  | .endOk :: bs => .ok cur :: decResultsFrom [] bs
  | .endErr c :: bs => .err c :: decResultsFrom [] bs

/-- The results of the complete output messages of a `DEC_OUT` stream, in order (R182). -/
def decResults (out : List DecBeat) : List DecResult := decResultsFrom [] out

end Sys2Proof.Machine
end

