-- ==== Sys2Proof/Machine/Pseudo.lean ====
section
/-! DEFINITION. The pseudo-instructions, which are the source's four public operations (spec/30_encoding.md R81 to R85),
and the wrapper's duties, which the spec leaves to the host: the check for an absent input (spec/60_exceptions.md R203,
spec/00_scope.md R6) and characters wider than the port (spec/70_reset_and_hazards.md R235). They are expansions into beats: no step of the machine runs one. -/

namespace Sys2Proof.Machine

/-- The four pseudo-instructions (R82 to R85). -/
inductive PseudoInstr where
  | encode (bs : List Byte)
  | encodeHex (bs : List Byte)
  | decode (cs : List Nat)
  | decodeHex (cs : List Nat)
  deriving DecidableEq, Repr

/-- The message a pseudo-instruction expands to (R82 to R85). -/
def expandPseudo : PseudoInstr → List Instr
  | .encode bs => encBeats .std bs
  | .encodeHex bs => encBeats .hex bs
  | .decode cs => decBeats .std cs
  | .decodeHex cs => decBeats .hex cs

/-- The result of a pseudo-instruction: a string, bytes, or the failure `InvalidCharacter` (R82, R84). -/
inductive PseudoResult where
  | string (cs : List Byte)
  | bytes (bs : List Byte)
  | invalidCharacter (c : Nat)
  deriving DecidableEq, Repr

/-- A decoder's result as a pseudo-instruction's (R84). -/
def pseudoOfDec : DecResult → PseudoResult
  | .ok bs => .bytes bs
  | .err c => .invalidCharacter c

/-- The engine a pseudo-instruction uses (R82 to R85). -/
def PseudoInstr.port : PseudoInstr → Port
  | .encode _ => .enc
  | .encodeHex _ => .enc
  | .decode _ => .dec
  | .decodeHex _ => .dec

/-- What the source's function gives for a pseudo-instruction (R82 to R85). -/
def pseudoValue : PseudoInstr → PseudoResult
  | .encode bs => .string (encodeMsg .std bs)
  | .encodeHex bs => .string (encodeMsg .hex bs)
  | .decode cs => pseudoOfDec (decodeMsg .std cs)
  | .decodeHex cs => pseudoOfDec (decodeMsg .hex cs)

/-- The string that answers an encoding pseudo-instruction (R82, R83). -/
def encAnswer : PseudoInstr → Option (List Byte)
  | .encode bs => some (encodeMsg .std bs)
  | .encodeHex bs => some (encodeMsg .hex bs)
  | .decode _ => none
  | .decodeHex _ => none

/-- The result that answers a decoding pseudo-instruction (R84, R85). -/
def decAnswer : PseudoInstr → Option DecResult
  | .encode _ => none
  | .encodeHex _ => none
  | .decode cs => some (decodeMsg .std cs)
  | .decodeHex cs => some (decodeMsg .hex cs)

/-! ## Characters wider than the port (R235) -/

/-- The code the wrapper presents in place of a character that has no `CW`-bit code: R235's own example, `0x00`, which
is invalid in both alphabets and is not `=` (log entry 15). -/
def standIn : Nat := 0x00

/-- The code presented for a character: its own, or the stand-in `x` where its code needs more than `CW` bits. It is
never truncated (R235, which speaks of `CW = 8`; that it holds for every `CW` is DESIGN CHOICE, log entry 15). -/
def presentChar (cfg : Config) (x c : Nat) : Nat := if c < 2 ^ cfg.cw then c else x

/-- The pseudo-instruction as it can be presented: every character as `presentChar` presents it (R235). -/
def PseudoInstr.presentable (cfg : Config) (x : Nat) : PseudoInstr → PseudoInstr
  | .encode bs => .encode bs
  | .encodeHex bs => .encodeHex bs
  | .decode cs => .decode (cs.map (presentChar cfg x))
  | .decodeHex cs => .decodeHex (cs.map (presentChar cfg x))

/-- The character of the text `cs` that `END ERR c` names (R235): on the stand-in, the first character presented as
it, which was the first to be looked up (DESIGN CHOICE, log entry 15); on any other code, that code. -/
def originalChar (cfg : Config) (x : Nat) (cs : List Nat) (c : Nat) : Nat :=
  if c = x then (cs.find? fun y => decide (presentChar cfg x y = x)).getD c else c

/-- A decoder's result as the wrapper reports it for the text `cs` (R235). -/
def reportOriginal (cfg : Config) (x : Nat) (cs : List Nat) : DecResult → DecResult
  | .ok bs => .ok bs
  | .err c => .err (originalChar cfg x cs c)

/-! ## The wrapper -/

/-- The wrapper (R81, R203, R235): an absent input is rejected with `NullInput` (`none`) before anything else and no
beat is presented; a present one, the empty one too, is put through the ports, a character wider than the port as the
stand-in. -/
def wrapperMoves (cfg : Config) : Option PseudoInstr → Option (List Move)
  | none => none
  | some p => some (hostMoves cfg (expandPseudo (p.presentable cfg standIn)))

/-- The results the wrapper reads for a pseudo-instruction (R82, R84, R235) from the pieces of `ENC_OUT` and
`DEC_OUT` emitted for it. -/
def readPseudo (cfg : Config) (p : PseudoInstr) (encPiece : List EncBeat) (decPiece : List DecBeat) : List PseudoResult :=
  match p with
  | .encode _ => (encResults encPiece).map .string
  | .encodeHex _ => (encResults encPiece).map .string
  | .decode cs => (decResults decPiece).map fun r => pseudoOfDec (reportOriginal cfg standIn cs r)
  | .decodeHex cs => (decResults decPiece).map fun r => pseudoOfDec (reportOriginal cfg standIn cs r)

end Sys2Proof.Machine
end

