-- ==== Sys2Proof/Safety.lean ====
section
/-! DEFINITION. What a good state and a finished run are (spec/10_state.md R37 to R40, spec/44_message_operations.md
R183), and the fairness under which it makes progress (spec/70_reset_and_hazards.md R237): the terms the statements use. -/

namespace Sys2Proof.Machine

/-- The encoder invariant (R37): idle means the reset state; busy means at most 4 residue bits, and no others in `ACC`. -/
abbrev EncRegs.Inv (e : EncRegs) : Prop :=
  (e.busy = false → e = .idle) ∧ (e.busy = true → e.bits.toNat ≤ 4 ∧ e.acc.toNat < 2 ^ e.bits.toNat)

/-- The decoder invariant (R38). -/
abbrev DecRegs.Inv (d : DecRegs) : Prop :=
  (d.st ≠ .run → d.acc = 0 ∧ d.bits = 0 ∧ d.padp = false) ∧
  (d.st = .idle → d.alph = .std) ∧
  (d.st = .run → d.bits.toNat ≤ 7 ∧ d.acc.toNat < 2 ^ d.bits.toNat)

/-- The five pairs of `BITS` and `OCNT` that occur between beats (R39). -/
abbrev EncRegs.PhasePair (e : EncRegs) : Prop :=
  (e.bits.toNat, e.ocnt.toNat) ∈ [(0, 0), (3, 1), (1, 3), (4, 4), (2, 6)]

/-- Every move that presents a word presents one of the port's width (R70). -/
def movesFit (cfg : Config) : List Move → Bool
  | [] => true
  | .present w :: ms => w.fits cfg && movesFit cfg ms
  | .accept _ :: ms => movesFit cfg ms
  | .ready _ _ :: ms => movesFit cfg ms
  | .reset :: ms => movesFit cfg ms

/-- Every word waiting on `DEC_IN`, and every word still to be presented, has the width of its port (R70). -/
abbrev State.WordsFit (s : State) : Prop :=
  (∀ w ∈ s.decIn, w < 2 ^ (s.cfg.cw + 2)) ∧ movesFit s.cfg s.moves = true

/-- The invariant of the machine: both engines' (R37, R38), the encoder's phases (R39), and the ports' widths (R70). -/
abbrev State.Inv (s : State) : Prop := s.enc.Inv ∧ s.enc.PhasePair ∧ s.dec.Inv ∧ s.WordsFit

/-- What the encoder's host sees and the encoder holds: its registers and its two ports. -/
def State.encView (s : State) : EncRegs × List (BitVec 10) × Bool × List EncBeat × List (List EncBeat) :=
  (s.enc, s.encIn, s.encReady, s.encOut, s.encPast)

/-- What the decoder's host sees and the decoder holds: its registers, its two ports, and the width of their words. -/
def State.decView (s : State) : Config × DecRegs × List Nat × Bool × List DecBeat × List (List DecBeat) :=
  (s.cfg, s.dec, s.decIn, s.decReady, s.decOut, s.decPast)

/-- A move that has to do with this engine: one on its ports, or a reset, which is common to both (R220). -/
def Move.concerns (p : Port) : Move → Bool
  | .present w => decide (w.port = p)
  | .accept q => decide (q = p)
  | .ready q _ => decide (q = p)
  | .reset => true

/-- Two states agree on an engine: on its registers and on its output stream. -/
abbrev State.SameEngine (p : Port) (s t : State) : Prop :=
  match p with
  | .enc => s.enc = t.enc ∧ s.encOut = t.encOut
  | .dec => s.dec = t.dec ∧ s.decOut = t.decOut

/-! ## What the host presents, and the fairness of R237 -/

/-- The words a list of moves presents on a port, in order (R56). -/
def wordsOf (p : Port) : List Move → List InWord
  | [] => []
  | .present w :: ms => if w.port = p then w :: wordsOf p ms else wordsOf p ms
  | .accept _ :: ms => wordsOf p ms
  | .ready _ _ :: ms => wordsOf p ms
  | .reset :: ms => wordsOf p ms

/-- The instructions of a sequence of words, in order. -/
def instrsOf (cfg : Config) : List InWord → List Instr
  | [] => []
  | w :: ws =>
    match decode cfg w with
    | .ok i => i :: instrsOf cfg ws
    | .error _ => instrsOf cfg ws

/-- Whether an engine's consumer accepts beats after a list of moves, `b` saying whether it does before (R237). -/
def readyAfter (p : Port) : Bool → List Move → Bool
  | b, [] => b
  | b, .ready q c :: ms => readyAfter p (if q = p then c else b) ms
  | b, .present _ :: ms => readyAfter p b ms
  | b, .accept _ :: ms => readyAfter p b ms
  | b, .reset :: ms => readyAfter p b ms

/-- The first `n` moves of an unending schedule. -/
def movesUpTo (f : Nat → Move) (n : Nat) : List Move := (List.range n).map f

/-- FAIRNESS (R237): in an unending schedule the engine's turn comes again and again at a moment at which the consumer
of its output accepts beats; `b` says whether the consumer accepts at the start. -/
def Fair (p : Port) (b : Bool) (f : Nat → Move) : Prop :=
  ∀ n, ∃ m, n ≤ m ∧ f m = .accept p ∧ readyAfter p b (movesUpTo f m) = true

/-- An engine is free for a new message and its output is taken: what a statement about a message from the host must
name as premises (R230, R237, R239). -/
abbrev State.FreeFor (s : State) : Port → Prop
  | .enc => s.enc = .idle ∧ s.encIn = [] ∧ s.encReady = true
  | .dec => s.dec = .idle ∧ s.decIn = [] ∧ s.decReady = true

/-- Both engines are idle: every message begun is complete (R183). -/
abbrev State.Idle (s : State) : Prop := s.enc = .idle ∧ s.dec = .idle

/-- A run is over (R183): both engines are idle and the host has nothing more to present or to let happen. -/
abbrev State.Over (s : State) : Prop := s.Idle ∧ s.encIn = [] ∧ s.decIn = [] ∧ s.moves = []

end Sys2Proof.Machine
end

