-- ==== Sys2Proof/Certificates/Slice0/Obligations.lean ====
section
/-! DEFINITION. The statements for the provers, from the numbered rules of spec/. The machine has no data memory
(spec/20_memory.md R50), no flags register (spec/10_state.md R41) and no program counter (R24), so a frame is a frame
over the registers, the ports and the streams; an equation `exec i s = .next { s with … }` is the whole frame at once.
A rule the spec itself marks as derived is cited by its file's section, and the docstring names it. -/

open Sys2Proof Sys2Proof.Machine

/-! ## Encoding -/

/-- Words written out from R71, R72 and R79 decode to the instructions they stand for, at `CW = 8` and `CW = 9`. -/
def Obligations.WrittenOutWordsDecode : Prop :=
  decode .cw8 (.enc 0b0001100110) = .ok (.encPut .std 0x66) ∧
  decode .cw8 (.enc 0b0101101111) = .ok (.encPut .hex 0x6F) ∧
  decode .cw8 (.enc 0b1000000000) = .ok (.encEnd .std 0) ∧
  decode .cw8 (.enc 0b1101010101) = .ok (.encEnd .hex 0x55) ∧
  decode .cw8 (.dec 0b0001001101) = .ok (.decPut .std 0x4D) ∧
  decode .cw8 (.dec 0b0101010111) = .ok (.decPut .hex 0x57) ∧
  decode .cw8 (.dec 0b1000000000) = .ok (.decEnd .std 0) ∧
  decode .cw8 (.dec 0b1100000000) = .ok (.decEnd .hex 0) ∧
  decode .cw9 (.dec 0b00101000001) = .ok (.decPut .std 0x141) ∧
  decode .cw9 (.dec 0b01001000001) = .ok (.decPut .hex 0x41) ∧
  decode .cw9 (.dec 0b11000000000) = .ok (.decEnd .hex 0)

/-- Decoding the word of a well-formed instruction gives it back, ignored fields included, for every `CW`
(R71, R72, R75, R76). -/
def Obligations.DecodeOfEncodeIsIdentity : Prop :=
  ∀ (cfg : Config) (i : Instr), i.wf cfg = true →
    decode cfg (encode cfg i) = .ok i ∧ (encode cfg i).port = i.port ∧ (encode cfg i).fits cfg = true

/-- Every word of a port is a legal instruction, and no two words are the same one (R76, R77: "Every 10-bit word on
ENC_IN and every (CW+2)-bit word on DEC_IN is a legal instruction; none traps at decode"). A number wider than the port
is no word and is rejected (the model's own clause, log entry 8). -/
def Obligations.EveryPortWordIsOneInstruction : Prop :=
  ∀ (cfg : Config) (w : InWord),
    (w.fits cfg = true → ∃ i, decode cfg w = .ok i ∧ i.wf cfg = true ∧ i.port = w.port ∧ encode cfg i = w) ∧
    (w.fits cfg = false → decode cfg w = .error .wordWiderThanPort)

/-- The words of the output beats, written out (R73, R74, R87): `SYM c` is `0x000 + c`, `END` is `0x100`; `BYTE b` is
`b`, `END OK` has `END` alone, at bit `CW + 1`, and `END ERR c` has `STATUS` too, at bit `CW`, above the code. Each word
has the port's width and names its beat. -/
def Obligations.OutputWordsNameTheirBeats : Prop :=
  (∀ c : Byte, (EncBeat.sym c).toWord.toNat = 0x000 + c.toNat) ∧ EncBeat.endMsg.toWord = 0x100 ∧
  (∀ (cfg : Config) (b : Byte) (c : Nat),
    (DecBeat.byte b).toWord cfg = b.toNat ∧ DecBeat.endOk.toWord cfg = 2 ^ (cfg.cw + 1) ∧
    (DecBeat.endErr c).toWord cfg = 2 ^ (cfg.cw + 1) + 2 ^ cfg.cw + c) ∧
  (∀ b : EncBeat, EncBeat.ofWord b.toWord = b) ∧
  (∀ (cfg : Config) (b : DecBeat), b.wf cfg = true →
    b.toWord cfg < 2 ^ (cfg.cw + 2) ∧ DecBeat.ofWord cfg (b.toWord cfg) = b)

/-- Ignored fields (R77): the data of an `END` beat, and `ALPH` on every beat that is not the first of its message,
may hold any value and the behaviour is the same; on an `END` beat that is the first it is latched and cleared again
(R91, R96, R111, R119), so there too. -/
def Obligations.IgnoredFieldsChangeNothing : Prop :=
  ∀ (a a' : Alph) (d x x' : Byte) (c y y' : Nat) (s : State), s.enc.Inv →
    exec (.encEnd a x) s = exec (.encEnd a' x') s ∧
    exec (.decEnd a y) s = exec (.decEnd a' y') s ∧
    (s.enc.busy = true → exec (.encPut a d) s = exec (.encPut a' d) s) ∧
    (s.dec.st ≠ .idle → exec (.decPut a c) s = exec (.decPut a' c) s)

/-! ## The alphabet tables -/

/-- The forward tables are R137's formulas. -/
def Obligations.ForwardTablesFollowTheirFormulas : Prop :=
  ∀ v : SymVal,
    (fwdLookup .std v).toNat = (if v.toNat ≤ 25 then 0x41 + v.toNat else 0x32 + (v.toNat - 26)) ∧
    (fwdLookup .hex v).toNat = (if v.toNat ≤ 9 then 0x30 + v.toNat else 0x41 + (v.toNat - 10))

/-- `RevLookup` (R146) answers the position of the code in the forward table and `INVALID` for every other code, any
code above 255 among them; each reverse table has 256 entries, 32 of them valid (R139). -/
def Obligations.ReverseLookupInvertsForward : Prop :=
  (∀ (a : Alph) (c : Nat) (v : SymVal), revLookup a c = some v ↔ c = (fwdLookup a v).toNat) ∧
  (∀ (a : Alph) (c : Nat), 255 < c → revLookup a c = none) ∧
  (∀ (a : Alph) (c : Nat), c < 256 → (revTable a)[c]? = some (revLookup a c)) ∧
  (∀ a : Alph, (revTable a).length = 256 ∧ (revTable a).countP Option.isSome = 32)

/-- The reverse tables written out as ranges of codes (the spec's derived rules R140, R141). -/
def Obligations.ReverseTablesAsRanges : Prop :=
  ∀ c : Nat,
    (revLookup .std c =
      if 0x32 ≤ c ∧ c ≤ 0x37 then some (BitVec.ofNat 5 (c - 0x32 + 26))
      else if 0x41 ≤ c ∧ c ≤ 0x5A then some (BitVec.ofNat 5 (c - 0x41)) else none) ∧
    (revLookup .hex c =
      if 0x30 ≤ c ∧ c ≤ 0x39 then some (BitVec.ofNat 5 (c - 0x30))
      else if 0x41 ≤ c ∧ c ≤ 0x56 then some (BitVec.ofNat 5 (c - 0x41 + 10)) else none)

/-! ## The encoder's instructions -/

/-- `ENC.PUT` (R97), in arithmetic: with `n = BITS + 8` bits `x = ACC * 256 + DATA` in hand, the top `n / 5` groups of
five bits leave as symbols of the message's alphabet (the beat's own on the first beat, R91), the low `n mod 5` bits
stay, `OCNT` counts the symbols modulo 8, and nothing else changes. It completes on every byte and never raises. -/
def Obligations.EncPutEmitsEveryWholeSymbol : Prop :=
  ∀ (a : Alph) (d : Byte) (s : State), s.enc.Inv →
    let al := if s.enc.busy then s.enc.alph else a
    let x := s.enc.acc.toNat * 256 + d.toNat
    let n := s.enc.bits.toNat + 8
    exec (.encPut a d) s = .next
      { s with
        enc :=
          { busy := true
            alph := al
            acc := BitVec.ofNat 12 (x % 2 ^ (n % 5))
            bits := BitVec.ofNat 4 (n % 5)
            ocnt := s.enc.ocnt + BitVec.ofNat 3 (n / 5) }
        encOut := s.encOut ++ (List.range (n / 5)).map fun j =>
          .sym (fwdLookup al (BitVec.ofNat 5 (x / 2 ^ (n - 5 * (j + 1))))) }

/-- `ENC.END` (R98): a residue leaves as one symbol with zero bits below it, pad characters fill the output up to a
multiple of 8, `END` closes it, and the engine is idle; nothing else changes. In the phases that occur between beats
the number of pad characters is 0, 1, 3, 4 or 6. -/
def Obligations.EncEndFlushesPadsAndCloses : Prop :=
  ∀ (a : Alph) (x : Byte) (s : State), s.enc.Inv →
    let r := s.enc.bits.toNat
    let syms := if 0 < r then [EncBeat.sym (fwdLookup s.enc.alph (BitVec.ofNat 5 (s.enc.acc.toNat * 2 ^ (5 - r))))] else []
    let p := (8 - (s.enc.ocnt.toNat + syms.length) % 8) % 8
    exec (.encEnd a x) s = .next
      { s with
        enc := .idle
        encOut := s.encOut ++ syms ++ List.replicate p (.sym padCode) ++ [.endMsg] } ∧
    (s.enc.PhasePair → p ∈ [0, 1, 3, 4, 6])

/-- The encoder's phases (the spec's derived rules R39 and R105): `k` bytes into a message, whatever the `ALPH` fields
of the later beats, `BITS`, `OCNT` and `ACC` are functions of `k` and the last byte, and the alphabet is the first
beat's. -/
def Obligations.EncoderPhaseAfterBytes : Prop :=
  ∀ (p : Alph × Byte) (ps : List (Alph × Byte)) (s : State), s.enc = .idle →
    let k := ps.length + 1
    ∃ t, execAll ((p :: ps).map fun q => .encPut q.1 q.2) s = .next t ∧
      t.enc.busy = true ∧ t.enc.alph = p.1 ∧
      t.enc.bits.toNat = 8 * k % 5 ∧ t.enc.ocnt.toNat = 8 * k / 5 % 8 ∧
      t.enc.acc.toNat = ((p :: ps).getLast (List.cons_ne_nil _ _)).2.toNat % 2 ^ (8 * k % 5)

/-! ## The decoder's instructions -/

/-- `DEC.PUT` of a valid character (R114, R115): with `n = BITS + 5` bits `x = ACC * 32 + v` in hand, the top eight
leave as one byte when there are eight, the low `n mod 8` bits stay, and nothing else changes. The character's value is
that of the message's alphabet (the beat's own on the first beat, R111); no pad is pending. -/
def Obligations.DecPutOfValidCharacter : Prop :=
  ∀ (a : Alph) (c : Nat) (v : SymVal) (s : State), s.dec.Inv → s.dec.st ≠ .skip → s.dec.padp = false →
    let al := if s.dec.st = .idle then a else s.dec.alph
    let x := s.dec.acc.toNat * 32 + v.toNat
    let n := s.dec.bits.toNat + 5
    revLookup al c = some v →
    exec (.decPut a c) s = .next
      { s with
        dec :=
          { st := .run
            alph := al
            acc := BitVec.ofNat 12 (x % 2 ^ (n % 8))
            bits := BitVec.ofNat 4 (n % 8)
            padp := false }
        decOut := s.decOut ++ if 8 ≤ n then [.byte (BitVec.ofNat 8 (x / 2 ^ (n - 8)))] else [] }

/-- `DEC.PUT` of the pad character outside `SKIP` (R155, with the latch of R111): `PADP` is set, the residue is kept,
nothing is emitted; a pad character may be a message's first beat. -/
def Obligations.DecPutOfPadDefers : Prop :=
  ∀ (a : Alph) (s : State), s.dec.st ≠ .skip →
    exec (.decPut a 0x3D) s = .next
      { s with dec := { s.dec with st := .run, alph := if s.dec.st = .idle then a else s.dec.alph, padp := true } }

/-- `DEC.PUT` of any other character while a pad is pending (R156, entering the failure by R121): the failure names the
pad character `0x3D`, whatever the character is, and the message is abandoned. -/
def Obligations.DecPutAfterPadRaises : Prop :=
  ∀ (a : Alph) (c : Nat) (s : State), s.dec.st = .run → s.dec.padp = true → c ≠ 0x3D →
    exec (.decPut a c) s = .next
      { s with
        dec := { st := .skip, alph := s.dec.alph, acc := 0, bits := 0, padp := false }
        decOut := s.decOut ++ [.endErr 0x3D] }

/-- `DEC.PUT` of an invalid character (R118, entering the failure by R121): `END ERR` names the character with all its
bits, the engine enters `SKIP`, the residue is cleared and `ALPH` keeps the message's alphabet, latched from this beat
if it is the first. -/
def Obligations.DecPutOfInvalidCharacterRaises : Prop :=
  ∀ (a : Alph) (c : Nat) (s : State), s.dec.st ≠ .skip → s.dec.padp = false → c ≠ 0x3D →
    let al := if s.dec.st = .idle then a else s.dec.alph
    revLookup al c = none →
    exec (.decPut a c) s = .next
      { s with
        dec := { st := .skip, alph := al, acc := 0, bits := 0, padp := false }
        decOut := s.decOut ++ [.endErr c] }

/-- `DEC.PUT` in `SKIP` (R120): no register changes, no output, for every character. -/
def Obligations.DecPutInSkipIsSwallowed : Prop :=
  ∀ (a : Alph) (c : Nat) (s : State), s.dec.st = .skip → exec (.decPut a c) s = .next s

/-- `DEC.END` (R119): `END OK`, or nothing when the failure has been reported; the engine is idle. It never fails, and
the residue and the pending pad are dropped unexamined. -/
def Obligations.DecEndCloses : Prop :=
  ∀ (a : Alph) (x : Nat) (s : State), s.dec.Inv →
    exec (.decEnd a x) s = .next
      { s with
        dec := .idle
        decOut := s.decOut ++ if s.dec.st = .skip then [] else [.endOk] }

/-- The decoder's phases (the spec's derived rules R40 and R129): `m` valid characters into a message, whatever the
`ALPH` fields of the later beats, `BITS` and the number of bytes emitted are functions of `m`. -/
def Obligations.DecoderPhaseAfterCharacters : Prop :=
  ∀ (p : Alph × Nat) (ps : List (Alph × Nat)) (s : State), s.dec = .idle →
    (∀ q ∈ p :: ps, (revLookup p.1 q.2).isSome = true) →
    let m := ps.length + 1
    ∃ (t : State) (bytes : List Byte), execAll ((p :: ps).map fun q => .decPut q.1 q.2) s = .next t ∧
      t.dec.st = .run ∧ t.dec.alph = p.1 ∧ t.dec.padp = false ∧
      t.dec.bits.toNat = 5 * m % 8 ∧
      t.decOut = s.decOut ++ bytes.map .byte ∧ bytes.length = 5 * m / 8

/-! ## Whole-machine rules -/

/-- The engines share no mutable state (the spec's derived rule R21): an instruction of one engine leaves every register
of the other and its streams as they were, and only appends to its own stream; neither touches the ports' queues, the
consumers, the cut streams, the moves or the configuration. This is the frame of all four instructions. -/
def Obligations.InstructionsTouchOnlyTheirEngine : Prop :=
  ∀ (i : Instr) (s t : State), exec i s = .next t →
    (i.port = .enc → t.dec = s.dec ∧ t.decOut = s.decOut ∧ ∃ burst, t.encOut = s.encOut ++ burst) ∧
    (i.port = .dec → t.enc = s.enc ∧ t.encOut = s.encOut ∧ ∃ burst, t.decOut = s.decOut ++ burst) ∧
    t.cfg = s.cfg ∧ t.encIn = s.encIn ∧ t.decIn = s.decIn ∧ t.encReady = s.encReady ∧ t.decReady = s.decReady ∧
    t.encPast = s.encPast ∧ t.decPast = s.decPast ∧ t.moves = s.moves

/-- Bursts are bounded (the spec's derived rules R99, R100, R122, R238): an `ENC.PUT` emits 1 or 2 beats, an encoder
beat at most 8, a decoder beat at most 1. -/
def Obligations.BurstsAreBounded : Prop :=
  ∀ (i : Instr) (s t : State), s.enc.Inv → s.enc.PhasePair → exec i s = .next t →
    let e := t.encOut.length - s.encOut.length
    let d := t.decOut.length - s.decOut.length
    s.encOut.length ≤ t.encOut.length ∧ s.decOut.length ≤ t.decOut.length ∧
    (i.port = .enc → 1 ≤ e ∧ e ≤ 8) ∧ (∀ a b, i = .encPut a b → e ≤ 2) ∧ d ≤ 1

/-- Only `DEC.PUT` raises `InvalidCharacter` (the spec's derived rules R197 and R205): a beat that appends `END ERR c`
is a `DEC.PUT` outside `SKIP`, it leaves the engine in `SKIP`, and `c` is the pad character if one was pending and the
character itself otherwise, which is then not in the alphabet of the message. -/
def Obligations.OnlyDecPutRaises : Prop :=
  ∀ (i : Instr) (s t : State) (c : Nat), exec i s = .next t → t.decOut = s.decOut ++ [.endErr c] →
    ∃ a c', i = .decPut a c' ∧ s.dec.st ≠ .skip ∧ t.dec.st = .skip ∧ c' ≠ 0x3D ∧
      (if s.dec.padp then c = 0x3D
        else c = c' ∧ revLookup (if s.dec.st = .idle then a else s.dec.alph) c' = none)

/-- A message keeps its alphabet, and only an `END` beat of the engine closes it (the spec's derived rules R47, R105,
R129). -/
def Obligations.MessageKeepsItsAlphabetUntilItsEnd : Prop :=
  ∀ (i : Instr) (s t : State), exec i s = .next t →
    (s.enc.busy = true → t.enc.busy = true ∧ t.enc.alph = s.enc.alph ∨ ∃ a x, i = .encEnd a x) ∧
    (s.dec.st ≠ .idle → t.dec.st ≠ .idle ∧ t.dec.alph = s.dec.alph ∨ ∃ a x, i = .decEnd a x)

/-! ## The step, reset, and the invariant -/

/-- Right after reset, for every configuration, every register holds the reset value of R45. -/
def Obligations.ResetLeavesRegistersAtResetValues : Prop :=
  ∀ cfg : Config,
    let s := State.resetWith cfg
    s.enc.busy = false ∧ s.enc.alph = .std ∧ s.enc.acc = 0 ∧ s.enc.bits = 0 ∧ s.enc.ocnt = 0 ∧
    s.dec.st = .idle ∧ s.dec.alph = .std ∧ s.dec.acc = 0 ∧ s.dec.bits = 0 ∧ s.dec.padp = false

/-- The reset event (R221), in any state, in the middle of a message too: every register is at its reset value and
nothing is emitted; what was emitted before stays, cut off from what comes after (log entries 5 and 6). -/
def Obligations.ResetEventEmptiesTheMachine : Prop :=
  ∀ (ms : List Move) (s : State), s.moves = .reset :: ms →
    ∃ t, step s = .next t ∧
      t.enc = (State.resetWith s.cfg).enc ∧ t.dec = (State.resetWith s.cfg).dec ∧
      t.encIn = [] ∧ t.decIn = [] ∧ t.encOut = [] ∧ t.decOut = [] ∧
      t.encPast = s.encPast ++ [s.encOut] ∧ t.decPast = s.decPast ++ [s.decOut] ∧
      t.encReady = s.encReady ∧ t.decReady = s.decReady ∧ t.cfg = s.cfg ∧ t.moves = ms

/-- A step runs the decoded instruction: at an engine's turn, if its consumer accepts and the oldest word of its port
decodes to `i`, the step is `exec i` on the state with that word and that turn taken (R56, R58). With no move left the
engines go on by themselves, ENC first (the model's order, log entry 2). The other moves (R56, R237, R239): a presented
word joins its own port's queue at the END, and a consumer starts or stops accepting; nothing else changes. -/
def Obligations.StepRunsTheAcceptedBeat : Prop :=
  ∀ (i : Instr) (ms : List Move) (s : State),
    (∀ (w : BitVec 10) (ws : List (BitVec 10)), s.moves = .accept .enc :: ms → s.encReady = true →
      s.encIn = w :: ws → decode s.cfg (.enc w) = .ok i → step s = exec i { s with moves := ms, encIn := ws }) ∧
    (∀ (w : Nat) (ws : List Nat), s.moves = .accept .dec :: ms → s.decReady = true →
      s.decIn = w :: ws → decode s.cfg (.dec w) = .ok i → step s = exec i { s with moves := ms, decIn := ws }) ∧
    (∀ (w : BitVec 10) (ws : List (BitVec 10)), s.moves = [] → s.encReady = true →
      s.encIn = w :: ws → decode s.cfg (.enc w) = .ok i → step s = exec i { s with encIn := ws }) ∧
    (∀ (w : Nat) (ws : List Nat), s.moves = [] → s.encReady = false ∨ s.encIn = [] → s.decReady = true →
      s.decIn = w :: ws → decode s.cfg (.dec w) = .ok i → step s = exec i { s with decIn := ws }) ∧
    (∀ w : BitVec 10, s.moves = .present (.enc w) :: ms →
      step s = .next { s with moves := ms, encIn := s.encIn ++ [w] }) ∧
    (∀ w : Nat, s.moves = .present (.dec w) :: ms → step s = .next { s with moves := ms, decIn := s.decIn ++ [w] }) ∧
    (∀ b : Bool, s.moves = .ready .enc b :: ms → step s = .next { s with moves := ms, encReady := b }) ∧
    (∀ b : Bool, s.moves = .ready .dec b :: ms → step s = .next { s with moves := ms, decReady := b })

/-- An engine stalls while the consumer of its output does not accept beats, and waits while no word is there (R210,
R237): its turn passes and no register, word or beat changes, so nothing is dropped. With no move listed and neither
engine able to take a beat the state is held (the model's form of waiting, log entries 3 and 4). -/
def Obligations.StalledOrWaitingEngineLosesNothing : Prop :=
  ∀ (ms : List Move) (s : State),
    (s.moves = .accept .enc :: ms → s.encReady = false ∨ s.encIn = [] → step s = .next { s with moves := ms }) ∧
    (s.moves = .accept .dec :: ms → s.decReady = false ∨ s.decIn = [] → step s = .next { s with moves := ms }) ∧
    (s.moves = [] → s.encReady = false ∨ s.encIn = [] → s.decReady = false ∨ s.decIn = [] → step s = .next s)

/-- The invariant holds right after reset, for every configuration and every list of moves whose words fit the ports. -/
def Obligations.InvariantHoldsAtReset : Prop :=
  ∀ (cfg : Config) (ms : List Move), movesFit cfg ms = true → State.Inv { State.resetWith cfg with moves := ms }

/-- Every step keeps the invariant (the spec's derived rules R37, R38, R39): both engines', the encoder's phase pairs
and the width of the words on the ports; and no step changes `CW` (R78). -/
def Obligations.EveryStepKeepsTheInvariant : Prop :=
  ∀ s t : State, s.Inv → step s = .next t → t.Inv ∧ t.cfg = s.cfg

/-- Every state whose words have the ports' widths (`WordsFit`) has a next state: the block is never in a fault or
refused (spec/60_exceptions.md R195, R212). That an engine which stalls, or for which no word waits, has a next state too
is the model's choice, waiting being a step that changes nothing (log entries 3 and 4): spec/93_implementation_defined.md
U16 calls "no END" and "output not taken" stuck, no step being enabled until the host acts. -/
def Obligations.NothingFaultsOrSticks : Prop :=
  ∀ s : State, s.WordsFit → ∃ t, step s = .next t ∧ t.WordsFit

/-- Only words of the port's width are left out: the one refusal of a step is a number that is no word of `DEC_IN`
(log entry 8), and there is no fault. -/
def Obligations.OnlyOverwideWordsAreRefused : Prop :=
  ∀ s : State, (∀ r, step s ≠ .fault r) ∧
    ∀ r, step s = .refused r →
      r = .wordWiderThanPort ∧ s.decReady = true ∧ (∃ w ws, s.decIn = w :: ws ∧ 2 ^ (s.cfg.cw + 2) ≤ w) ∧
        ((∃ ms, s.moves = .accept .dec :: ms) ∨ s.moves = [] ∧ (s.encReady = false ∨ s.encIn = []))

/-- The two engines do not interfere (the spec's rule R57 (b), on its derived rule R21): two runs that agree on one
engine and on the moves that concern it end in agreement on it, whatever the other engine holds, whatever moves it is
given and however the two are interleaved. -/
def Obligations.EnginesDoNotInterfere : Prop :=
  ∀ s s' : State, s.WordsFit → s'.WordsFit →
    ∃ t t', run s.moves.length s = .next t ∧ run s'.moves.length s' = .next t' ∧ t.moves = [] ∧ t'.moves = [] ∧
      (s.encView = s'.encView → s.moves.filter (Move.concerns .enc) = s'.moves.filter (Move.concerns .enc) →
        t.encView = t'.encView) ∧
      (s.decView = s'.decView → s.moves.filter (Move.concerns .dec) = s'.moves.filter (Move.concerns .dec) →
        t.decView = t'.decView)

/-- The ports are lossless and ordered (R56, R57 (a)), in every run without a reset event, whatever is presented and
whenever: on each port some number `k` of the words waiting or presented has been accepted, the others still wait in
their order, and the engine and its stream are what the accepted words' instructions make of them, each run whole, once
and in order. None is lost, duplicated or reordered. -/
def Obligations.PortsLoseDuplicateAndReorderNothing : Prop :=
  ∀ (n : Nat) (s t : State) (p : Port), run n s = .next t → .reset ∉ s.moves.take n →
    let ws := s.waiting p ++ wordsOf p (s.moves.take n)
    ∃ k ≤ ws.length, t.waiting p = ws.drop k ∧
      ∃ u, execAll (instrsOf s.cfg (ws.take k)) s = .next u ∧ t.SameEngine p u

/-- Progress when the list of moves is over (R237): if the consumer of an engine's output accepts beats in the end, then
every word waiting or presented on its port is accepted and its burst delivered, in the order of presentation,
whether or not the other engine's consumer accepts. THE MODEL'S CHOICES, not the rule's: that the engines go on by
themselves once no move is listed, ENC first (log entries 2 and 3); so too the bound, that after the moves listed one
step for each word is enough, which counts steps of the model and says nothing of time (log entry 3 marks a claim that
counts steps unsafe); and that the consumer is a flag, read after the list by `readyAfter` (log entry 4). R237 says only
"eventually". -/
def Obligations.TakenOutputDrainsThePort : Prop :=
  ∀ (s : State) (p : Port), s.WordsFit → .reset ∉ s.moves → readyAfter p (s.ready p) s.moves = true →
    let ws (q : Port) := s.waiting q ++ wordsOf q s.moves
    ∀ n, s.moves.length + (ws .enc).length + (ws .dec).length ≤ n →
      ∃ t u, run n s = .next t ∧ t.waiting p = [] ∧
        execAll (instrsOf s.cfg (ws p)) s = .next u ∧ t.SameEngine p u

/-- Progress under fairness (R237), for an unending schedule without a reset event: if an engine's turn comes again and
again while the consumer of its output accepts, every beat presented is eventually accepted and its burst delivered.
For every moment `n` there is a later one `m` at which exactly the words presented before `n` have been accepted and
run in order, and those presented since are waiting. Nothing is asked of the other engine's consumer. That an engine's
turn is a move of the schedule, and the form `Fair` of R237's assumption, are the model's (log entries 2 and 4). -/
def Obligations.FairnessDeliversEveryBeat : Prop :=
  ∀ (s : State) (f : Nat → Move) (p : Port),
    (∀ w ∈ s.decIn, w < 2 ^ (s.cfg.cw + 2)) → (∀ n w, f n = .present w → w.fits s.cfg = true) →
    (∀ n, f n ≠ .reset) → Fair p (s.ready p) f →
    ∀ n, ∃ m t u, n ≤ m ∧ run m { s with moves := movesUpTo f m } = .next t ∧
      t.waiting p = wordsOf p ((movesUpTo f m).drop n) ∧
      execAll (instrsOf s.cfg (s.waiting p ++ wordsOf p (movesUpTo f n))) s = .next u ∧ t.SameEngine p u

/-! ## The whole-message functions -/

/-- The length law and the shape of an encoded string (R166, R153): `ceil(8n/5)` alphabet characters, then pad
characters up to `8 * ceil(n/5)`; empty exactly for the empty input. -/
def Obligations.EncodedStringShape : Prop :=
  ∀ (a : Alph) (bs : List Byte),
    let n := bs.length
    (encodeMsg a bs).length = 8 * ((n + 4) / 5) ∧ (encodeMsg a bs = [] ↔ bs = []) ∧
    ∃ vs : List SymVal, vs.length = (8 * n + 4) / 5 ∧
      encodeMsg a bs = vs.map (fwdLookup a) ++ List.replicate (8 * ((n + 4) / 5) - (8 * n + 4) / 5) padCode

/-- The closed form of the encoder (the spec's derived rule R104): the message's bits, as one number with zero bits
appended up to a multiple of 5, cut from the top into groups of 5. -/
def Obligations.EncodeClosedForm : Prop :=
  ∀ (a : Alph) (bs : List Byte),
    let n := bs.length
    let l := (8 * n + 4) / 5
    let z := bs.foldl (fun w b => w * 256 + b.toNat) 0 * 2 ^ (5 * l - 8 * n)
    encodeMsg a bs = (List.range l).map (fun j => fwdLookup a (BitVec.ofNat 5 (z / 2 ^ (5 * (l - 1 - j)))))
      ++ List.replicate ((8 - l % 8) % 8) padCode

/-- The closed form of the decoder (the spec's derived rule R126): the values of the characters, as one number, cut
from the top into bytes; what is left, 0 to 7 bits, is dropped whatever it is (R116). Any number of pad characters may
follow. -/
def Obligations.DecodeClosedForm : Prop :=
  ∀ (a : Alph) (vs : List SymVal) (p : Nat),
    let m := vs.length
    let k := 5 * m / 8
    let z := vs.foldl (fun w v => w * 32 + v.toNat) 0
    decodeMsg a (vs.map (fun v => (fwdLookup a v).toNat) ++ List.replicate p padChar) =
      .ok ((List.range k).map fun i => BitVec.ofNat 8 (z / 2 ^ (5 * m - 8 * (i + 1))))

/-- The length of a decoded message (R172). -/
def Obligations.DecodedLength : Prop :=
  ∀ (a : Alph) (cs : List Nat) (out : List Byte),
    decodeMsg a cs = .ok out → out.length = (strip cs).length * 5 / 8

/-- `Strip` (R171): the longest prefix that is empty or does not end in the pad character. -/
def Obligations.StripRemovesExactlyTheTrailingPads : Prop :=
  ∀ cs : List Nat, ∃ t, cs = strip cs ++ List.replicate t 0x3D ∧ (strip cs).getLast? ≠ some 0x3D

/-- When decoding fails, and on which character (R174): on the first character of `Strip(cs)` that is not in the
alphabet, an inner pad character among them; and it succeeds when there is none. -/
def Obligations.DecodeFailsOnFirstInvalidCharacter : Prop :=
  ∀ (a : Alph) (cs : List Nat) (c : Nat),
    (decodeMsg a cs = .err c ↔ (strip cs).find? (fun x => (revLookup a x).isNone) = some c) ∧
    ((∀ x ∈ strip cs, (revLookup a x).isSome = true) → ∃ out, decodeMsg a cs = .ok out) ∧
    revLookup a 0x3D = none

/-- The round trip (R175): decoding an encoded message gives it back. -/
def Obligations.DecodeOfEncodedMessageIsTheMessage : Prop :=
  ∀ (a : Alph) (bs : List Byte), decodeMsg a ((encodeMsg a bs).map BitVec.toNat) = .ok bs

/-- The canonical strings (the spec's derived rule R176): a string of alphabet characters followed by pad characters is
an encoded message exactly when its alphabet characters fill the last group to 0, 2, 4, 5 or 7, the pad characters fill
it up to 8, and the bits the decoder would drop are all zero. -/
def Obligations.CanonicalStringsCharacterised : Prop :=
  ∀ (a : Alph) (vs : List SymVal) (p : Nat),
    (∃ bs, encodeMsg a bs = vs.map (fwdLookup a) ++ List.replicate p padCode) ↔
      vs.length % 8 ∈ [0, 2, 4, 5, 7] ∧ p = (8 - vs.length % 8) % 8 ∧
      vs.foldl (fun w v => w * 32 + v.toNat) 0 % 2 ^ (5 * vs.length % 8) = 0

/-- Concatenation at a group boundary (the spec's derived rule R168). -/
def Obligations.EncodeOfConcatenation : Prop :=
  ∀ (a : Alph) (xs ys : List Byte), xs.length % 5 = 0 → encodeMsg a (xs ++ ys) = encodeMsg a xs ++ encodeMsg a ys

/-- The two alphabets give the same string up to a translation of the characters (the spec's derived rule R169). -/
def Obligations.AlphabetsDifferByTranslation : Prop :=
  ∀ bs : List Byte, encodeMsg .hex bs = (encodeMsg .std bs).map fun c =>
    match revLookup .std c.toNat with
    | some v => fwdLookup .hex v
    | none => c

/-! ## The engines compute these functions -/

/-- The encoder theorem (the spec's derived rule R180): from idle, a message's beats, with any `ALPH` fields after the
first and any `DATA` in the `END` beat, emit exactly `Encode` of the bytes in the first beat's alphabet and `END`, and
leave the engine idle and all else as it was; after `k` bytes the first `floor(8k/5)` characters have been emitted. -/
def Obligations.EncoderComputesEncode : Prop :=
  ∀ (ps : List (Alph × Byte)) (aEnd : Alph) (x : Byte) (s : State), s.enc = .idle →
    let out := encodeMsg (firstAlph ps aEnd) (ps.map Prod.snd)
    execAll (encBeatsMixed ps aEnd x) s = .next { s with encOut := s.encOut ++ out.map .sym ++ [.endMsg] } ∧
    ∀ k ≤ ps.length, ∃ t, execAll ((ps.take k).map fun p => .encPut p.1 p.2) s = .next t ∧
      t.encOut = s.encOut ++ (out.take (8 * k / 5)).map .sym

/-- The decoder theorem (the spec's derived rule R181): from idle, a message's beats, with any `ALPH` fields after the
first and any `CHAR` in the `END` beat, leave the engine idle and all else as it was, and emit the bytes of `Decode` and
`END OK` when it succeeds; when it fails on `c`, the void bytes of the valid characters before the first offending one,
and `END ERR c`. -/
def Obligations.DecoderComputesDecode : Prop :=
  ∀ (ps : List (Alph × Nat)) (aEnd : Alph) (x : Nat) (s : State), s.dec = .idle →
    let a := firstAlph ps aEnd
    let cs := ps.map Prod.snd
    (∀ out, decodeMsg a cs = .ok out →
      execAll (decBeatsMixed ps aEnd x) s = .next { s with decOut := s.decOut ++ out.map .byte ++ [.endOk] }) ∧
    (∀ c, decodeMsg a cs = .err c →
      ∃ pre, decodeMsg a (cs.takeWhile fun y => (revLookup a y).isSome) = .ok pre ∧
        execAll (decBeatsMixed ps aEnd x) s = .next { s with decOut := s.decOut ++ pre.map .byte ++ [.endErr c] })

/-- Any number of trailing pad characters is accepted, and the result does not depend on it (R159); with no other
character the result is empty. -/
def Obligations.TrailingPadsAreTolerated : Prop :=
  ∀ (a : Alph) (cs : List Nat) (s : State), s.dec = .idle → (∀ c ∈ cs, (revLookup a c).isSome = true) →
    ∃ out : List Byte, out.length = 5 * cs.length / 8 ∧
      ∀ t : Nat, execAll (decBeats a (cs ++ List.replicate t padChar)) s =
        .next { s with decOut := s.decOut ++ out.map .byte ++ [.endOk] }

/-- Through the hardware and back (from the spec's rules R175, R180, R181): the characters the encoder emits for a
message, presented to the decoder, come out as the message's bytes and `END OK`. -/
def Obligations.EncoderThenDecoderReturnsTheBytes : Prop :=
  ∀ (a : Alph) (bs : List Byte) (s : State), s.Idle →
    ∃ (t u : State) (cs : List Byte),
      execAll (encBeats a bs) s = .next t ∧ t.encOut = s.encOut ++ cs.map .sym ++ [.endMsg] ∧
      execAll (decBeats a (cs.map BitVec.toNat)) t = .next u ∧
      u.decOut = s.decOut ++ bs.map .byte ++ [.endOk] ∧ u.encOut = t.encOut ∧ u.Idle

/-- What a host observes (the spec's R182 and derived R184), step by step through the ports, from reset, for every `CW`:
put any number of messages, on either port and in any order, through the machine; the run is over, and the `i`-th output
message of each engine is the function of the `i`-th input message, a failed message tainting none that follows. PREMISE
(R237, R239: a model that relies on the output being taken must name it): the consumers of both output ports accept
beats throughout and both input ports are empty at the start. `State.resetWith` says so by log entry 3 (marked unsafe
for such a claim) and no move listed changes it. -/
def Obligations.ObservedResultsAreEncodeAndDecode : Prop :=
  ∀ (cfg : Config) (ps : List PseudoInstr), (∀ p ∈ ps, ∀ i ∈ expandPseudo p, i.wf cfg = true) →
    let ms := ps.flatMap fun p => hostMoves cfg (expandPseudo p)
    ∃ t, run ms.length { State.resetWith cfg with moves := ms } = .next t ∧ t.Over ∧
      encResults t.encOut = ps.filterMap encAnswer ∧ decResults t.decOut = ps.filterMap decAnswer

/-! ## Characters wider than the port -/

/-- Characters wider than the port, for every stand-in `x` that is an 8-bit code invalid in both alphabets and
not `=`: every code presented has `CW` bits, and the result, the stand-in reported as the character it stood for, is that
of the text itself, in which a character wider than the port is an invalid one. So it is neither truncated nor lost, and
the order of failures is kept. R235 gives this duty for `CW = 8`, with "report the original character"; that the wrapper
does it for every `CW`, and that the original is the first character of the text so presented, is the model's choice
(log entry 15). -/
def Obligations.WideCharactersAreInvalidCharacters : Prop :=
  ∀ (cfg : Config) (x : Nat) (a : Alph) (cs : List Nat),
    x < 256 → x ≠ 0x3D → revLookup .std x = none → revLookup .hex x = none →
    (∀ c ∈ cs.map (presentChar cfg x), c < 2 ^ cfg.cw) ∧
    (∀ c ∈ cs, c < 2 ^ cfg.cw → presentChar cfg x c = c) ∧
    reportOriginal cfg x cs (decodeMsg a (cs.map (presentChar cfg x))) = decodeMsg a cs

/-- The four public operations, through the wrapper and the ports (R82 to R85, R203, R235), for every `CW` and texts
with characters of any code: an absent input presents nothing; a present one, put through the ports of an engine that is
free for it, its consumer accepting (the premises `FreeFor`, R230, R237, R239), whatever the other engine is in the
middle of, gives exactly one result, the source's function of the input; all else is as it was. The stand-in `0x00` is
the model's choice among those R235 allows, and so are the stand-in at a `CW` above 8 and the wrapper itself as a
definition beside the machine (log entries 14 and 15). -/
def Obligations.WrapperAnswersEveryOperation : Prop :=
  (∀ cfg, wrapperMoves cfg none = none) ∧
  ∀ (p : PseudoInstr) (s : State), s.FreeFor p.port →
    ∃ ms eo d, wrapperMoves s.cfg (some p) = some ms ∧
      run ms.length { s with moves := ms } =
        .next { s with moves := [], encOut := s.encOut ++ eo, decOut := s.decOut ++ d } ∧
      readPseudo s.cfg p eo d = [pseudoValue p] ∧
      (p.port = .enc → d = []) ∧ (p.port = .dec → eo = [])
end

