-- ==== Sys2Proof/Laws/Operands.lean ====
section
/-! SUPPORT. What the lookups and the low bits of an accumulator are. -/

namespace Sys2Proof.Machine

@[simp] theorem padCode_toNat : padCode.toNat = 0x3D := rfl
theorem padChar_eq : padChar = 0x3D := rfl

@[simp] theorem lowBits_toNat (x : Acc) (k : Nat) : (lowBits x k).toNat = x.toNat % 2 ^ k := by
  have h : x.toNat % 2 ^ k ≤ x.toNat := Nat.mod_le _ _
  simp only [lowBits, BitVec.toNat_ofNat]
  exact Nat.mod_eq_of_lt (by omega)

/-- A code above 255 is not looked up (R146). -/
theorem revLookup_of_wide {a : Alph} {c : Nat} (h : 255 < c) : revLookup a c = none := by
  simp [revLookup, h]

/-- A code of 8 bits is looked up in the table (R146). -/
theorem revLookup_of_byte {a : Alph} {c : Nat} (h : c < 256) :
    revLookup a c = revEntry a (BitVec.ofNat 8 c) := by
  have : ¬ 255 < c := by omega
  simp [revLookup, this]

/-- A valid character has a code of 8 bits. -/
theorem lt_of_revLookup {a : Alph} {c : Nat} {v : SymVal} (h : revLookup a c = some v) : c < 256 := by
  by_contra hc
  rw [revLookup_of_wide (by omega)] at h
  cases h

end Sys2Proof.Machine
end

