-- ==== Sys2Proof/Laws/Ops.lean ====
section
/-! SUPPORT. What each micro-operation does, said once: later proofs cite these and do not unfold the operation. -/

namespace Sys2Proof.Machine

/-! ## The encoder -/

@[simp] theorem encLatch_of_busy {a : Alph} {e : EncRegs} (h : e.busy = true) : encLatch a e = e := by
  simp [encLatch, h]

@[simp] theorem encLatch_of_idle {a : Alph} {e : EncRegs} (h : e.busy = false) :
    encLatch a e = { e with alph := a, busy := true } := by
  simp [encLatch, h]

/-- Absorbing loses no bit while the residue has at most 4 (R92). -/
theorem encAbsorb_acc_toNat {d : Byte} {e : EncRegs} (h : e.acc.toNat < 16) :
    (encAbsorb d e).acc.toNat = e.acc.toNat * 256 + d.toNat := by
  have hd := d.isLt
  have hsh : e.acc.toNat <<< 8 = e.acc.toNat * 256 := by simp [Nat.shiftLeft_eq]
  simp only [encAbsorb, BitVec.toNat_or, BitVec.toNat_shiftLeft, BitVec.toNat_setWidth]
  rw [hsh, Nat.mod_eq_of_lt (by omega), Nat.mod_eq_of_lt (by omega), ← hsh, ← Nat.shiftLeft_add_eq_or_of_lt hd]

/-- The bit count after absorbing, while it does not wrap (R92, R101). -/
theorem encAbsorb_bits_toNat {d : Byte} {e : EncRegs} (h : e.bits.toNat ≤ 7) :
    (encAbsorb d e).bits.toNat = e.bits.toNat + 8 := by
  simp [encAbsorb, BitVec.toNat_add]
  omega

/-- One symbol leaves: its value is the quotient, what is kept the remainder (R93). -/
theorem encEmit_eq (e : EncRegs) :
    encEmit e =
      ({ e with
          bits := e.bits - 5
          ocnt := e.ocnt + 1
          acc := BitVec.ofNat 12 (e.acc.toNat % 2 ^ (e.bits - 5).toNat) },
        .sym (fwdLookup e.alph (BitVec.ofNat 5 (e.acc.toNat / 2 ^ (e.bits.toNat - 5))))) := by
  have : (e.acc >>> (e.bits.toNat - 5)).setWidth 5 = BitVec.ofNat 5 (e.acc.toNat / 2 ^ (e.bits.toNat - 5)) := by
    apply BitVec.eq_of_toNat_eq
    simp [Nat.shiftRight_eq_div_pow]
  simp only [encEmit, lowBits, this]

theorem encEmit_bits_toNat {e : EncRegs} (h : 5 ≤ e.bits.toNat) : (encEmit e).1.bits.toNat = e.bits.toNat - 5 := by
  have := e.bits.isLt
  simp [encEmit, BitVec.toNat_sub]
  omega

/-- The loop stops with fewer than 5 bits once it has fuel for them all (R97). -/
theorem encEmitLoop_bits_lt : ∀ (fuel : Nat) (e : EncRegs), e.bits.toNat < 5 * fuel + 5 →
    (encEmitLoop fuel e).1.bits.toNat < 5
  | 0, _, h => by simpa [encEmitLoop] using h
  | fuel + 1, e, h => by
    by_cases h5 : 5 ≤ e.bits.toNat
    · have ih := encEmitLoop_bits_lt fuel (encEmit e).1 (by rw [encEmit_bits_toNat h5]; omega)
      simpa [encEmitLoop, encHasSymbol, h5] using ih
    · simpa [encEmitLoop, encHasSymbol, h5] using (by omega : e.bits.toNat < 5)

/-- Three rounds are enough in every state, reachable or not. -/
theorem encEmitLoop_ends (e : EncRegs) : (encEmitAll e).1.bits.toNat < 5 :=
  encEmitLoop_bits_lt 3 e (by have := e.bits.isLt; omega)

/-- The loop with no symbol held. -/
theorem encEmitLoop_of_lt {fuel : Nat} {e : EncRegs} (h : e.bits.toNat < 5) : encEmitLoop fuel e = (e, []) := by
  have : ¬ 5 ≤ e.bits.toNat := by omega
  cases fuel <;> simp [encEmitLoop, encHasSymbol, this]

/-- One round of the loop. -/
theorem encEmitLoop_of_le {fuel : Nat} {e : EncRegs} (h : 5 ≤ e.bits.toNat) :
    encEmitLoop (fuel + 1) e =
      ((encEmitLoop fuel (encEmit e).1).1, (encEmit e).2 :: (encEmitLoop fuel (encEmit e).1).2) := by
  simp [encEmitLoop, encHasSymbol, h]

/-- The last symbol: the residue times the zero bits below it (R94). -/
theorem encFinal_eq (e : EncRegs) :
    encFinal e =
      ({ e with ocnt := e.ocnt + 1, bits := 0, acc := 0 },
        .sym (fwdLookup e.alph (BitVec.ofNat 5 (e.acc.toNat * 2 ^ (5 - e.bits.toNat))))) := by
  have : (e.acc <<< (5 - e.bits.toNat)).setWidth 5 = BitVec.ofNat 5 (e.acc.toNat * 2 ^ (5 - e.bits.toNat)) := by
    apply BitVec.eq_of_toNat_eq
    simp only [BitVec.toNat_setWidth, BitVec.toNat_shiftLeft, BitVec.toNat_ofNat, Nat.shiftLeft_eq]
    exact Nat.mod_mod_of_dvd _ (by decide)
  simp only [encFinal, this]

/-- The injector's whole loop (R152): pad characters up to the next multiple of 8, and the count is 0. -/
theorem encPadOut_eq (e : EncRegs) :
    encPadOut e = ({ e with ocnt := 0 }, List.replicate ((8 - e.ocnt.toNat) % 8) (.sym padCode)) := by
  obtain ⟨busy, alph, acc, bits, ocnt⟩ := e
  have h : ocnt = 0 ∨ ocnt = 1 ∨ ocnt = 2 ∨ ocnt = 3 ∨ ocnt = 4 ∨ ocnt = 5 ∨ ocnt = 6 ∨ ocnt = 7 := by
    revert ocnt; decide
  obtain rfl | rfl | rfl | rfl | rfl | rfl | rfl | rfl := h <;>
    simp [encPadOut, encPadLoop, encNeedsPad, List.replicate]

/-- Seven rounds are enough in every state. -/
theorem encPadLoop_ends (e : EncRegs) : (encPadOut e).1.ocnt = 0 := by rw [encPadOut_eq]

/-- `ENC.CLOSE` leaves the idle state, whatever the registers held (R96). -/
@[simp] theorem encClose_eq (e : EncRegs) : encClose e = (.idle, .endMsg) := rfl

/-- `ENC.END` leaves the idle state (R98, R226). -/
@[simp] theorem encEndBeat_idle (a : Alph) (e : EncRegs) : (encEndBeat a e).1 = .idle := rfl

/-! ## The decoder -/

@[simp] theorem decLatch_of_idle {a : Alph} {d : DecRegs} (h : d.st = .idle) :
    decLatch a d = { d with alph := a, st := .run } := by
  simp [decLatch, h]

@[simp] theorem decLatch_of_open {a : Alph} {d : DecRegs} (h : d.st ≠ .idle) : decLatch a d = d := by
  obtain ⟨st, alph, acc, bits, padp⟩ := d
  cases st <;> simp_all [decLatch]

/-- Absorbing loses no bit while the residue has at most 7 (R114). -/
theorem decAbsorb_acc_toNat {v : SymVal} {d : DecRegs} (h : d.acc.toNat < 128) :
    (decAbsorb v d).acc.toNat = d.acc.toNat * 32 + v.toNat := by
  have hv := v.isLt
  have hsh : d.acc.toNat <<< 5 = d.acc.toNat * 32 := by simp [Nat.shiftLeft_eq]
  simp only [decAbsorb, BitVec.toNat_or, BitVec.toNat_shiftLeft, BitVec.toNat_setWidth]
  rw [hsh, Nat.mod_eq_of_lt (by omega), Nat.mod_eq_of_lt (by omega), ← hsh, ← Nat.shiftLeft_add_eq_or_of_lt hv]

/-- The bit count after absorbing, while it does not wrap (R114, R123). -/
theorem decAbsorb_bits_toNat {v : SymVal} {d : DecRegs} (h : d.bits.toNat ≤ 10) :
    (decAbsorb v d).bits.toNat = d.bits.toNat + 5 := by
  simp [decAbsorb, BitVec.toNat_add]
  omega

/-- One byte leaves: its value is the quotient, what is kept the remainder (R115). -/
theorem decExtract_eq (d : DecRegs) :
    decExtract d =
      ({ d with
          bits := d.bits - 8
          acc := BitVec.ofNat 12 (d.acc.toNat % 2 ^ (d.bits - 8).toNat) },
        .byte (BitVec.ofNat 8 (d.acc.toNat / 2 ^ (d.bits.toNat - 8)))) := by
  have : (d.acc >>> (d.bits.toNat - 8)).setWidth 8 = BitVec.ofNat 8 (d.acc.toNat / 2 ^ (d.bits.toNat - 8)) := by
    apply BitVec.eq_of_toNat_eq
    simp [Nat.shiftRight_eq_div_pow]
  simp only [decExtract, lowBits, this]

/-- The failure's entry, whole (R121): the beat, and every register after it. -/
theorem decFail_eq (x : Nat) (d : DecRegs) :
    decFail x d = (⟨.skip, d.alph, 0, 0, false⟩, [.endErr x]) := rfl

/-- The return, whole (R204): only the phase and the alphabet are written, nothing is emitted. -/
theorem decReturn_eq (d : DecRegs) : decReturn d = (⟨.idle, .std, d.acc, d.bits, d.padp⟩, []) := rfl

@[simp] theorem isPad_eq_true {c : Nat} : isPad c = true ↔ c = padChar := by simp [isPad]

/-- `DEC.PUT` after the latch takes one of four ways (R112, R118). -/
theorem decCharBeat_cases (c : Nat) (d : DecRegs) :
    (c = padChar ∧ decCharBeat c d = decPadDefer d) ∨
    (c ≠ padChar ∧ d.padp = true ∧ decCharBeat c d = decFail padChar d) ∨
    (c ≠ padChar ∧ d.padp = false ∧ revLookup d.alph c = none ∧ decCharBeat c d = decFail c d) ∨
    (∃ v, c ≠ padChar ∧ d.padp = false ∧ revLookup d.alph c = some v ∧ decCharBeat c d = decDrain (decAbsorb v d)) := by
  by_cases hc : c = padChar
  · exact .inl ⟨hc, by simp [decCharBeat, hc]⟩
  cases hp : d.padp with
  | true => exact .inr (.inl ⟨hc, rfl, by simp [decCharBeat, hc, hp, decPadBreak]⟩)
  | false =>
    cases hv : revLookup d.alph c with
    | none => exact .inr (.inr (.inl ⟨hc, rfl, rfl, by simp [decCharBeat, hc, hp, decLookup, hv]⟩))
    | some v => exact .inr (.inr (.inr ⟨v, hc, rfl, rfl, by simp [decCharBeat, hc, hp, decLookup, hv]⟩))

/-- `DEC.PUT` in `SKIP`, and outside it (R118). -/
@[simp] theorem decPutBeat_of_skip {a : Alph} {c : Nat} {d : DecRegs} (h : d.st = .skip) :
    decPutBeat a c d = (d, []) := by
  simp [decPutBeat, h, decSwallow]

theorem decPutBeat_of_not_skip {a : Alph} {c : Nat} {d : DecRegs} (h : d.st ≠ .skip) :
    decPutBeat a c d = decCharBeat c (decLatch a d) := by
  obtain ⟨st, alph, acc, bits, padp⟩ := d
  cases st <;> simp_all [decPutBeat]

/-- `DEC.END` in `SKIP`, and outside it (R119). -/
theorem decEndBeat_of_skip {a : Alph} {d : DecRegs} (h : d.st = .skip) : decEndBeat a d = decReturn d := by
  simp [decEndBeat, h]

theorem decEndBeat_of_not_skip {a : Alph} {d : DecRegs} (h : d.st ≠ .skip) : decEndBeat a d = (.idle, [.endOk]) := by
  obtain ⟨st, alph, acc, bits, padp⟩ := d
  cases st <;> simp_all [decEndBeat, decClose, decDiscard, decPadDrop, decLatch, DecRegs.idle]

/-! ## The four instructions -/

@[simp] theorem exec_encPut (a : Alph) (d : Byte) (s : State) :
    exec (.encPut a d) s = .next (s.encDeliver (encPutBeat a d s.enc)) := rfl
@[simp] theorem exec_encEnd (a : Alph) (x : Byte) (s : State) :
    exec (.encEnd a x) s = .next (s.encDeliver (encEndBeat a s.enc)) := rfl
@[simp] theorem exec_decPut (a : Alph) (c : Nat) (s : State) :
    exec (.decPut a c) s = .next (s.decDeliver (decPutBeat a c s.dec)) := rfl
@[simp] theorem exec_decEnd (a : Alph) (x : Nat) (s : State) :
    exec (.decEnd a x) s = .next (s.decDeliver (decEndBeat a s.dec)) := rfl

/-- Everything an instruction can do to the state: one engine's registers change and its stream grows. -/
theorem exec_cases (i : Instr) (s : State) :
    (i.port = .enc ∧ ∃ r, exec i s = .next (s.encDeliver r)) ∨
    (i.port = .dec ∧ ∃ r, exec i s = .next (s.decDeliver r)) := by
  cases i with
  | encPut a d => exact .inl ⟨rfl, _, rfl⟩
  | encEnd a x => exact .inl ⟨rfl, _, rfl⟩
  | decPut a c => exact .inr ⟨rfl, _, rfl⟩
  | decEnd a x => exact .inr ⟨rfl, _, rfl⟩

end Sys2Proof.Machine
end

