-- ==== Sys2Proof/Laws/PerInstr.lean ====
section
/-! SUPPORT. Statements made per instruction (LAWS.json). Family `PortAndWidth`: an instruction's word stands on the
instruction's port and has the port's width (spec/30_encoding.md R70, R76). -/

namespace Sys2Proof.Laws.PortAndWidth

/-- The word of a well-formed instruction stands on its port and fits it. -/
def Statement (i : Instr) : Prop :=
  ∀ cfg : Config, i.wf cfg = true → (encode cfg i).port = i.port ∧ (encode cfg i).fits cfg = true

/-- Three fields laid side by side do not exceed the port's width. -/
theorem encodeDecIn_lt (cfg : Config) (isEnd : Bool) (a : Alph) {c : Nat} (h : c < 2 ^ cfg.cw) :
    encodeDecIn cfg isEnd a c < 2 ^ (cfg.cw + 2) := by
  have h1 : 2 ^ (cfg.cw + 1) = 2 * 2 ^ cfg.cw := by rw [Nat.pow_succ, Nat.mul_comm]
  have h2 : 2 ^ (cfg.cw + 2) = 4 * 2 ^ cfg.cw := by rw [Nat.pow_add, Nat.mul_comm]
  cases isEnd <;> cases a <;> simp [encodeDecIn, Alph.toBit] <;> omega

theorem encPut (a : Alph) (d : Byte) : Statement (.encPut a d) := fun _ _ => ⟨rfl, rfl⟩

theorem encEnd (a : Alph) (x : Byte) : Statement (.encEnd a x) := fun _ _ => ⟨rfl, rfl⟩

theorem decPut (a : Alph) (c : Nat) : Statement (.decPut a c) := fun cfg h =>
  ⟨rfl, by simpa [encode, InWord.fits] using encodeDecIn_lt cfg false a (by simpa [Instr.wf] using h)⟩

theorem decEnd (a : Alph) (x : Nat) : Statement (.decEnd a x) := fun cfg h =>
  ⟨rfl, by simpa [encode, InWord.fits] using encodeDecIn_lt cfg true a (by simpa [Instr.wf] using h)⟩

end Sys2Proof.Laws.PortAndWidth
end

