-- ==== Sys2Proof/Laws/Pseudo.lean ====
section
/-! SUPPORT. What the wrapper presents for a character (spec/70_reset_and_hazards.md R235). -/

namespace Sys2Proof.Machine

section
variable {cfg : Config} {x c : Nat}

@[simp] theorem presentChar_of_lt (h : c < 2 ^ cfg.cw) : presentChar cfg x c = c := by simp [presentChar, h]

@[simp] theorem presentChar_of_wide (h : ¬ c < 2 ^ cfg.cw) : presentChar cfg x c = x := by simp [presentChar, h]

/-- A port is at least a byte wide (R8). -/
theorem byte_lt_cw (cfg : Config) (h : x < 256) : x < 2 ^ cfg.cw := by
  have h2 : 2 ^ cfg.cw = 256 * 2 ^ cfg.extraBits := by rw [Config.cw, Nat.pow_add]
  have := Nat.one_le_two_pow (n := cfg.extraBits)
  omega

/-- What is presented fits the port. -/
theorem presentChar_lt (h : x < 256) : presentChar cfg x c < 2 ^ cfg.cw := by
  by_cases hc : c < 2 ^ cfg.cw
  · rwa [presentChar_of_lt hc]
  · rw [presentChar_of_wide hc]; exact byte_lt_cw cfg h

theorem originalChar_of_ne {cs : List Nat} (h : c ≠ x) : originalChar cfg x cs c = c := by simp [originalChar, h]

end

/-- The stand-in is a code R235 allows: 8 bits, not `=`, invalid in both alphabets. -/
theorem standIn_allowed : standIn < 256 ∧ standIn ≠ padChar ∧ ∀ a, revLookup a standIn = none :=
  ⟨by decide, by decide, fun a => by cases a <;> decide⟩

end Sys2Proof.Machine
end

