-- ==== Sys2Proof/Laws/Schedule.lean ====
section
/-! SUPPORT. The small lemmas of what a list of moves presents, of the consumers after it, and of schedules. -/

namespace Sys2Proof.Machine

@[simp] theorem wordsOf_nil (p : Port) : wordsOf p [] = [] := rfl
@[simp] theorem wordsOf_accept (p q : Port) (ms : List Move) : wordsOf p (.accept q :: ms) = wordsOf p ms := rfl
@[simp] theorem wordsOf_ready (p q : Port) (b : Bool) (ms : List Move) :
    wordsOf p (.ready q b :: ms) = wordsOf p ms := rfl
@[simp] theorem wordsOf_reset (p : Port) (ms : List Move) : wordsOf p (.reset :: ms) = wordsOf p ms := rfl
theorem wordsOf_present_own {p : Port} {w : InWord} (h : w.port = p) (ms : List Move) :
    wordsOf p (.present w :: ms) = w :: wordsOf p ms := by simp [wordsOf, h]
theorem wordsOf_present_other {p : Port} {w : InWord} (h : w.port ≠ p) (ms : List Move) :
    wordsOf p (.present w :: ms) = wordsOf p ms := by simp [wordsOf, h]

theorem wordsOf_append (p : Port) : ∀ ms ns : List Move, wordsOf p (ms ++ ns) = wordsOf p ms ++ wordsOf p ns
  | [], _ => rfl
  | .present w :: ms, ns => by
    by_cases h : w.port = p <;> simp [wordsOf, h, wordsOf_append p ms ns]
  | .accept _ :: ms, ns => wordsOf_append p ms ns
  | .ready _ _ :: ms, ns => wordsOf_append p ms ns
  | .reset :: ms, ns => wordsOf_append p ms ns

theorem readyAfter_append (p : Port) : ∀ (b : Bool) (ms ns : List Move),
    readyAfter p b (ms ++ ns) = readyAfter p (readyAfter p b ms) ns
  | _, [], _ => rfl
  | b, .ready q c :: ms, ns => readyAfter_append p (if q = p then c else b) ms ns
  | b, .present _ :: ms, ns => readyAfter_append p b ms ns
  | b, .accept _ :: ms, ns => readyAfter_append p b ms ns
  | b, .reset :: ms, ns => readyAfter_append p b ms ns

/-- Only a move of the consumer changes whether it accepts. -/
theorem readyAfter_of_no_ready {p : Port} {b : Bool} : ∀ {ms : List Move}, (∀ m ∈ ms, ∀ q c, m ≠ .ready q c) →
    readyAfter p b ms = b
  | [], _ => rfl
  | .ready q c :: _, h => absurd rfl (h (.ready q c) (List.mem_cons_self ..) q c)
  | .present _ :: ms, h => readyAfter_of_no_ready (ms := ms) fun m hm => h m (List.mem_cons_of_mem _ hm)
  | .accept _ :: ms, h => readyAfter_of_no_ready (ms := ms) fun m hm => h m (List.mem_cons_of_mem _ hm)
  | .reset :: ms, h => readyAfter_of_no_ready (ms := ms) fun m hm => h m (List.mem_cons_of_mem _ hm)

theorem instrsOf_append (cfg : Config) : ∀ ws vs : List InWord,
    instrsOf cfg (ws ++ vs) = instrsOf cfg ws ++ instrsOf cfg vs
  | [], _ => rfl
  | w :: ws, vs => by
    cases h : decode cfg w with
    | ok i => simp [instrsOf, h, instrsOf_append cfg ws vs]
    | error r => simp [instrsOf, h, instrsOf_append cfg ws vs]

@[simp] theorem movesUpTo_length (f : Nat → Move) (n : Nat) : (movesUpTo f n).length = n := by simp [movesUpTo]

theorem movesUpTo_succ (f : Nat → Move) (n : Nat) : movesUpTo f (n + 1) = movesUpTo f n ++ [f n] := by
  simp [movesUpTo, List.range_succ]

theorem mem_movesUpTo {f : Nat → Move} {n : Nat} {m : Move} : m ∈ movesUpTo f n ↔ ∃ k < n, f k = m := by
  simp [movesUpTo]

/-- A schedule in which the consumer is never moved, and in which the engine's turn comes again and again, is fair. -/
theorem fair_of_no_ready {p : Port} {f : Nat → Move} (hf : ∀ n, ∃ m, n ≤ m ∧ f m = .accept p)
    (hr : ∀ n q c, f n ≠ .ready q c) : Fair p true f := fun n =>
  let ⟨m, hm, ha⟩ := hf n
  ⟨m, hm, ha, readyAfter_of_no_ready fun _ hx q c he =>
    let ⟨k, _, hk⟩ := mem_movesUpTo.mp hx
    hr k q c (hk.trans he)⟩

end Sys2Proof.Machine
end

