-- ==== Sys2Proof/Laws/State.lean ====
section
/-! SUPPORT. One lemma per field per update of the state, true by rfl, so that no later proof unfolds a record update. -/

namespace Sys2Proof.Machine

/-! ## Delivering an encoder step -/

section
variable (s : State) (r : EncRegs × List EncBeat)
@[simp] theorem encDeliver_cfg : (s.encDeliver r).cfg = s.cfg := rfl
@[simp] theorem encDeliver_enc : (s.encDeliver r).enc = r.1 := rfl
@[simp] theorem encDeliver_dec : (s.encDeliver r).dec = s.dec := rfl
@[simp] theorem encDeliver_encIn : (s.encDeliver r).encIn = s.encIn := rfl
@[simp] theorem encDeliver_decIn : (s.encDeliver r).decIn = s.decIn := rfl
@[simp] theorem encDeliver_encReady : (s.encDeliver r).encReady = s.encReady := rfl
@[simp] theorem encDeliver_decReady : (s.encDeliver r).decReady = s.decReady := rfl
@[simp] theorem encDeliver_encOut : (s.encDeliver r).encOut = s.encOut ++ r.2 := rfl
@[simp] theorem encDeliver_decOut : (s.encDeliver r).decOut = s.decOut := rfl
@[simp] theorem encDeliver_encPast : (s.encDeliver r).encPast = s.encPast := rfl
@[simp] theorem encDeliver_decPast : (s.encDeliver r).decPast = s.decPast := rfl
@[simp] theorem encDeliver_moves : (s.encDeliver r).moves = s.moves := rfl
end

/-! ## Delivering a decoder step -/

section
variable (s : State) (r : DecRegs × List DecBeat)
@[simp] theorem decDeliver_cfg : (s.decDeliver r).cfg = s.cfg := rfl
@[simp] theorem decDeliver_enc : (s.decDeliver r).enc = s.enc := rfl
@[simp] theorem decDeliver_dec : (s.decDeliver r).dec = r.1 := rfl
@[simp] theorem decDeliver_encIn : (s.decDeliver r).encIn = s.encIn := rfl
@[simp] theorem decDeliver_decIn : (s.decDeliver r).decIn = s.decIn := rfl
@[simp] theorem decDeliver_encReady : (s.decDeliver r).encReady = s.encReady := rfl
@[simp] theorem decDeliver_decReady : (s.decDeliver r).decReady = s.decReady := rfl
@[simp] theorem decDeliver_encOut : (s.decDeliver r).encOut = s.encOut := rfl
@[simp] theorem decDeliver_decOut : (s.decDeliver r).decOut = s.decOut ++ r.2 := rfl
@[simp] theorem decDeliver_encPast : (s.decDeliver r).encPast = s.encPast := rfl
@[simp] theorem decDeliver_decPast : (s.decDeliver r).decPast = s.decPast := rfl
@[simp] theorem decDeliver_moves : (s.decDeliver r).moves = s.moves := rfl
end

/-! ## The reset event -/

section
variable (s : State)
@[simp] theorem resetEvent_cfg : s.resetEvent.cfg = s.cfg := rfl
@[simp] theorem resetEvent_enc : s.resetEvent.enc = .idle := rfl
@[simp] theorem resetEvent_dec : s.resetEvent.dec = .idle := rfl
@[simp] theorem resetEvent_encIn : s.resetEvent.encIn = [] := rfl
@[simp] theorem resetEvent_decIn : s.resetEvent.decIn = [] := rfl
@[simp] theorem resetEvent_encReady : s.resetEvent.encReady = s.encReady := rfl
@[simp] theorem resetEvent_decReady : s.resetEvent.decReady = s.decReady := rfl
@[simp] theorem resetEvent_encOut : s.resetEvent.encOut = [] := rfl
@[simp] theorem resetEvent_decOut : s.resetEvent.decOut = [] := rfl
@[simp] theorem resetEvent_encPast : s.resetEvent.encPast = s.encPast ++ [s.encOut] := rfl
@[simp] theorem resetEvent_decPast : s.resetEvent.decPast = s.decPast ++ [s.decOut] := rfl
@[simp] theorem resetEvent_moves : s.resetEvent.moves = s.moves := rfl
end

/-! ## Presenting a word, and the consumers -/

section
variable (s : State) (b : Bool)
@[simp] theorem present_enc (w : BitVec 10) : s.present (.enc w) = { s with encIn := s.encIn ++ [w] } := rfl
@[simp] theorem present_dec (w : Nat) : s.present (.dec w) = { s with decIn := s.decIn ++ [w] } := rfl
@[simp] theorem setReady_enc : s.setReady b .enc = { s with encReady := b } := rfl
@[simp] theorem setReady_dec : s.setReady b .dec = { s with decReady := b } := rfl
end

/-! ## The ports, read by name -/

section
variable (s : State)
@[simp] theorem waiting_enc : s.waiting .enc = s.encIn.map .enc := rfl
@[simp] theorem waiting_dec : s.waiting .dec = s.decIn.map .dec := rfl
@[simp] theorem ready_enc : s.ready .enc = s.encReady := rfl
@[simp] theorem ready_dec : s.ready .dec = s.decReady := rfl
end

end Sys2Proof.Machine
end

