-- ==== Sys2Proof/Laws/Step.lean ====
section
/-! SUPPORT. What a step can do, said once, and the run function of the statements. -/

namespace Sys2Proof.Machine

/-- What an engine accepts at its turn (R56, R237). -/
theorem fetch_cases {s : State} {p : Port} {w : InWord} {t : State} (h : s.fetch p = some (w, t)) :
    (p = .enc ∧ s.encReady = true ∧ ∃ v vs, s.encIn = v :: vs ∧ w = .enc v ∧ t = { s with encIn := vs }) ∨
    (p = .dec ∧ s.decReady = true ∧ ∃ v vs, s.decIn = v :: vs ∧ w = .dec v ∧ t = { s with decIn := vs }) := by
  obtain ⟨cfg, enc, dec, encIn, decIn, encReady, decReady, encOut, decOut, encPast, decPast, moves⟩ := s
  cases p with
  | enc =>
    cases encReady <;> cases encIn <;> simp [State.fetch] at h
    exact .inl ⟨rfl, rfl, _, _, rfl, h.1.symm, h.2.symm⟩
  | dec =>
    cases decReady <;> cases decIn <;> simp [State.fetch] at h
    exact .inr ⟨rfl, rfl, _, _, rfl, h.1.symm, h.2.symm⟩

/-- An engine takes no beat exactly when it stalls or no word waits (R237). -/
theorem fetch_enc_eq_none {s : State} : s.fetch .enc = none ↔ s.encReady = false ∨ s.encIn = [] := by
  obtain ⟨cfg, enc, dec, encIn, decIn, encReady, decReady, encOut, decOut, encPast, decPast, moves⟩ := s
  cases encReady <;> cases encIn <;> simp [State.fetch]

theorem fetch_dec_eq_none {s : State} : s.fetch .dec = none ↔ s.decReady = false ∨ s.decIn = [] := by
  obtain ⟨cfg, enc, dec, encIn, decIn, encReady, decReady, encOut, decOut, encPast, decPast, moves⟩ := s
  cases decReady <;> cases decIn <;> simp [State.fetch]

/-- With no move listed: ENC takes a beat, or DEC does while ENC cannot, or neither can. -/
theorem fetchAny_cases (s : State) :
    (∃ r, s.fetch .enc = some r ∧ s.fetchAny = some r) ∨
    (s.fetch .enc = none ∧ ∃ r, s.fetch .dec = some r ∧ s.fetchAny = some r) ∨
    (s.fetch .enc = none ∧ s.fetch .dec = none ∧ s.fetchAny = none) := by
  cases he : s.fetch .enc with
  | some r => exact .inl ⟨r, rfl, by simp [State.fetchAny, he]⟩
  | none =>
    cases hd : s.fetch .dec with
    | some r => exact .inr (.inl ⟨rfl, r, rfl, by simp [State.fetchAny, he, hd]⟩)
    | none => exact .inr (.inr ⟨rfl, rfl, by simp [State.fetchAny, he, hd]⟩)

/-- An accepted word that decodes is run; one that does not is refused by name. -/
theorem runWord_of_ok {s : State} {w : InWord} {i : Instr} (h : decode s.cfg w = .ok i) : runWord w s = exec i s := by
  simp [runWord, h]

theorem runWord_of_error {s : State} {w : InWord} (h : decode s.cfg w = .error .wordWiderThanPort) :
    runWord w s = .refused .wordWiderThanPort := by
  simp [runWord, h]

/-! ## The step, one lemma per kind of move -/

section
variable {s : State} {ms : List Move}

theorem step_of_no_moves_none (h : s.moves = []) (hf : s.fetchAny = none) : step s = .next s := by simp [step, runTaken, h, hf]

theorem step_of_no_moves_some {w : InWord} {t : State} (h : s.moves = []) (hf : s.fetchAny = some (w, t)) :
    step s = runWord w t := by simp [step, runTaken, h, hf]

theorem step_of_present {w : InWord} (h : s.moves = .present w :: ms) :
    step s = .next (State.present { s with moves := ms } w) := by simp [step, h]

theorem step_of_ready {p : Port} {b : Bool} (h : s.moves = .ready p b :: ms) :
    step s = .next (State.setReady { s with moves := ms } b p) := by simp [step, h]

theorem step_of_reset (h : s.moves = .reset :: ms) : step s = .next (State.resetEvent { s with moves := ms }) := by
  simp [step, h]

theorem step_of_accept_none {p : Port} (h : s.moves = .accept p :: ms)
    (hf : State.fetch { s with moves := ms } p = none) : step s = .next { s with moves := ms } := by
  simp [step, runTaken, h, hf]

theorem step_of_accept_some {p : Port} {w : InWord} {t : State} (h : s.moves = .accept p :: ms)
    (hf : State.fetch { s with moves := ms } p = some (w, t)) : step s = runWord w t := by
  simp [step, runTaken, h, hf]

end

/-- The run of the statements is the host's. -/
theorem run_eq_core_run : ∀ (n : Nat) (s : State), run n s = Host.Core.run Sys2Proof.core n s
  | 0, _ => rfl
  | n + 1, s => by
    have hs : Sys2Proof.core.step s = step s := rfl
    cases h : step s with
    | next t => simpa only [run, Host.Core.run, hs, h] using run_eq_core_run n t
    | fault r => simp only [run, Host.Core.run, hs, h]; rfl
    | refused r => simp only [run, Host.Core.run, hs, h]; rfl

/-- A run in two parts. -/
theorem run_add : ∀ (m n : Nat) (s t : State), run m s = .next t → run (m + n) s = run n t
  | 0, n, s, t, h => by
    simp only [run, Host.Outcome.next.injEq] at h
    rw [Nat.zero_add, h]
  | m + 1, n, s, t, h => by
    rw [Nat.succ_add]
    simp only [run] at h ⊢
    cases hs : step s with
    | next u => rw [hs] at h; exact run_add m n u t h
    | fault r => rw [hs] at h; cases h
    | refused r => rw [hs] at h; cases h

/-- Running a sequence of instructions in two parts. -/
theorem execAll_append : ∀ (is js : List Instr) (s t : State), execAll is s = .next t →
    execAll (is ++ js) s = execAll js t
  | [], _, s, t, h => by
    simp only [execAll, Host.Outcome.next.injEq] at h
    rw [List.nil_append, h]
  | i :: is, js, s, t, h => by
    simp only [execAll, List.cons_append] at h ⊢
    cases hs : exec i s with
    | next u => rw [hs] at h; exact execAll_append is js u t h
    | fault r => rw [hs] at h; cases h
    | refused r => rw [hs] at h; cases h

end Sys2Proof.Machine
end

