-- ==== Sys2Proof/Tests/Slice0.lean ====
section
/-! SUPPORT. Tests: words written out from the encoding tables, ill-formed terms that the checks refuse, single steps
with expected results from spec/95_test_vectors.md and the rules' own examples, and for each statement with hypotheses a
concrete state and operands that meet all of them (`witness_…`). -/

namespace Sys2Proof.Tests
open Sys2Proof Sys2Proof.Machine

/-! ## Helpers -/

/-- A machine right after reset, `CW = 9`, with these engines. -/
def at9 (e : EncRegs) (d : DecRegs) : State := { State.resetWith .cw9 with enc := e, dec := d }

/-- The outcome is a next state that passes the check. -/
def nextIs (o : Host.Outcome State Fault Refusal) (p : State → Bool) : Bool :=
  match o with
  | .next t => p t
  | .fault _ => false
  | .refused _ => false

/-- The encoder's registers and stream after a step are these. -/
def encIs (o : Host.Outcome State Fault Refusal) (e : EncRegs) (out : List EncBeat) : Bool :=
  nextIs o fun t => decide (t.enc = e) && decide (t.encOut = out)

/-- The decoder's registers and stream after a step are these. -/
def decIs (o : Host.Outcome State Fault Refusal) (d : DecRegs) (out : List DecBeat) : Bool :=
  nextIs o fun t => decide (t.dec = d) && decide (t.decOut = out)

/-- The state after one byte `0x66` of a standard message (R97's example). -/
def encAfter66 : EncRegs := ⟨true, .std, 6, 3, 1⟩

/-- A decoder in an extended-hex message. -/
def decRunHex : DecRegs := ⟨.run, .hex, 0x00C, 5, false⟩

/-- A decoder with a pad pending (vectors D24 to D26). -/
def decPadPending : DecRegs := ⟨.run, .std, 5, 3, true⟩

/-- A decoder that has failed (vectors D28 to D30). -/
def decSkipping : DecRegs := ⟨.skip, .hex, 0, 0, false⟩

/-! ## WellFormed: each check refuses an ill-formed term (R72, R74, R75) -/

theorem test_wf_refuses_wide_char : Instr.wf .cw8 (.decPut .std 0x141) = false := by decide
theorem test_wf_accepts_wide_char_at_cw9 : Instr.wf .cw9 (.decPut .std 0x141) = true := by decide
theorem test_wf_refuses_wide_ignored_field : Instr.wf .cw8 (.decEnd .std 256) = false := by decide
theorem test_fits_refuses_wide_word : InWord.fits .cw8 (.dec 0x400) = false := by decide
theorem test_beat_wf_refuses_wide_val : DecBeat.wf .cw8 (.endErr 256) = false := by decide

/-! ## Decoding words written out bit by bit (R71, R72, R79) -/

theorem test_decode_enc_put_s : decodeEncIn 0b0001100110 = .encPut .std 0x66 := by decide
theorem test_decode_enc_put_h : decodeEncIn 0b0111111110 = .encPut .hex 0xFE := by decide
theorem test_decode_enc_end_s : decodeEncIn 0b1000000000 = .encEnd .std 0 := by decide
theorem test_decode_enc_end_h : decodeEncIn 0b1101010101 = .encEnd .hex 0x55 := by decide
theorem test_decode_dec_put : decode .cw8 (.dec 0b0101010111) = .ok (.decPut .hex 0x57) := by decide
theorem test_decode_dec_end : decode .cw8 (.dec 0b1100000000) = .ok (.decEnd .hex 0) := by decide
/-- `CW = 9` (spec/95_test_vectors.md section 7): `DEC.PUT.S 0x141` is the word `0x141`, `DEC.END.H` is `0x600`. -/
theorem test_decode_dec_put_cw9 : decode .cw9 (.dec 0x141) = .ok (.decPut .std 0x141) := by decide
theorem test_decode_dec_end_cw9 : decode .cw9 (.dec 0x600) = .ok (.decEnd .hex 0) := by decide
theorem test_decode_refuses_wide_word : decode .cw8 (.dec 0x400) = .error .wordWiderThanPort := by decide

/-- `END ERR 0x141` at `CW = 9` is the word `0x741` (vector X13), `END ERR '='` at `CW = 8` is `0x33D` (X12). -/
theorem test_out_word_cw9 : DecBeat.toWord .cw9 (.endErr 0x141) = 0x741 := by decide
theorem test_out_word_cw8 : DecBeat.toWord .cw8 (.endErr 0x3D) = 0x33D := by decide
theorem test_out_word_enc : EncBeat.toWord (.sym 0x3D) = 0x03D ∧ EncBeat.toWord .endMsg = 0x100 := by decide

/-- Words of spec/opcode_table.json, the port named above them (log entry 7). -/
theorem test_table_words :
    decodeTableWord 16 0x000 = some (.encPut .std 0) ∧ decodeTableWord 16 0x200 = some (.encEnd .std 0) ∧
    decodeTableWord 16 0x400 = some (.decPut .std 0) ∧ decodeTableWord 16 0x600 = some (.decEnd .std 0) := by decide

/-- The word placed for the next fetch runs as the first instruction after reset. -/
theorem test_fetch_word_enc : encIs (step (State.reset.withFetchWord 16 0x066)) encAfter66 [.sym 0x4D] = true := by decide
theorem test_fetch_word_dec :
    decIs (step (State.reset.withFetchWord 16 (0x400 + 0x04D))) ⟨.run, .std, 0x00C, 5, false⟩ [] = true := by decide

/-! ## The tables (vectors A1 to A12) -/

theorem test_fwd_ends :
    [fwdLookup .std 0, fwdLookup .std 25, fwdLookup .std 26, fwdLookup .std 31,
     fwdLookup .hex 0, fwdLookup .hex 9, fwdLookup .hex 10, fwdLookup .hex 31] =
    [0x41, 0x5A, 0x32, 0x37, 0x30, 0x39, 0x41, 0x56] := by decide
theorem test_rev_valid :
    [revLookup .std 0x4D, revLookup .hex 0x4D, revLookup .std 0x32, revLookup .hex 0x32] =
    [some 12, some 22, some 26, some 2] := by decide
theorem test_rev_invalid :
    [revLookup .std 0x31, revLookup .hex 0x57, revLookup .std 0x3D, revLookup .hex 0x3D, revLookup .std 0x6D,
     revLookup .std 0x141, revLookup .hex 0x130] = [none, none, none, none, none, none, none] := by decide

/-! ## The encoder -/

/-- Program P4 row 8: the fullest accumulator. -/
theorem test_enc_put_full :
    encIs (exec (.encPut .std 0xFF) (at9 ⟨true, .hex, 0xF, 4, 4⟩ .idle)) ⟨true, .hex, 3, 2, 6⟩ [.sym 0x56, .sym 0x56] = true := by
  decide
/-- Vector E10: `ALPH` of a later beat is ignored. -/
theorem test_enc_put_latch :
    encIs (exec (.encPut .hex 0x6F) (at9 encAfter66 .idle)) ⟨true, .std, 1, 1, 3⟩ [.sym 0x5A, .sym 0x58] = true := by decide
/-- R98's example: `MY======`. -/
theorem test_enc_end_pads :
    encIs (exec (.encEnd .std 0) (at9 encAfter66 .idle)) .idle
      ([.sym 0x59] ++ List.replicate 6 (.sym 0x3D) ++ [.endMsg]) = true := by decide
/-- Vector E8: the empty message. -/
theorem test_enc_end_empty : encIs (exec (.encEnd .hex 0x55) (at9 .idle .idle)) .idle [.endMsg] = true := by decide

/-! ## The decoder -/

/-- Section 3.3, row `BITS = 7`: the fullest accumulator. -/
theorem test_dec_put_full :
    decIs (exec (.decPut .hex 0x56) (at9 .idle ⟨.run, .std, 0x5B, 7, false⟩)) ⟨.run, .std, 5, 4, false⟩ [.byte 0xB7] = true := by
  decide
/-- Vector D25: a pad that is not trailing is reported in place of the character. -/
theorem test_dec_put_pad_break :
    decIs (exec (.decPut .std 0x41) (at9 .idle decPadPending)) ⟨.skip, .std, 0, 0, false⟩ [.endErr 0x3D] = true := by decide
/-- Vector D27: seven residue bits are dropped unexamined. -/
theorem test_dec_end_drops :
    decIs (exec (.decEnd .hex 0) (at9 .idle ⟨.run, .std, 0x5B, 7, false⟩)) .idle [.endOk] = true := by decide
/-- Vector D30: the return from a failure emits nothing. -/
theorem test_dec_end_returns : decIs (exec (.decEnd .std 0) (at9 .idle decSkipping)) .idle [] = true := by decide

/-! ## Whole messages (vectors S6, S13, D15, P-8) -/

theorem test_encode_foobar :
    encodeMsg .std [0x66, 0x6F, 0x6F, 0x62, 0x61, 0x72] =
      [0x4D, 0x5A, 0x58, 0x57, 0x36, 0x59, 0x54, 0x42, 0x4F, 0x49, 0x3D, 0x3D, 0x3D, 0x3D, 0x3D, 0x3D] := by decide
theorem test_decode_first_failure :
    decodeMsg .hex [0x4D, 0x5A, 0x58, 0x57, 0x36, 0x3D, 0x3D, 0x3D] = .err 0x5A := by decide
theorem test_decode_drops_residue : decodeMsg .std [0x4D, 0x5A, 0x3D, 0x3D] = .ok [0x66] := by decide
theorem test_decode_inner_pad : decodeMsg .std [0x4D, 0x59, 0x3D, 0x31] = .err 0x3D := by decide
/-- An absent input presents nothing (S15); the empty input is the single beat `END` (S9). -/
theorem test_null_input : wrapperMoves .cw8 none = none := rfl
/-- R235: at `CW = 8` the character `0x141` is presented as `0x00`, not as `A`, and reported as itself; `0x241` is no
`END` beat. -/
theorem test_wide_character :
    wrapperMoves .cw8 (some (.decode [0x4D, 0x141])) =
      some [.present (.dec 0x04D), .accept .dec, .present (.dec 0x000), .accept .dec, .present (.dec 0x200), .accept .dec] ∧
    wrapperMoves .cw8 (some (.decode [0x241])) =
      some [.present (.dec 0x000), .accept .dec, .present (.dec 0x200), .accept .dec] ∧
    readPseudo .cw8 (.decode [0x4D, 0x141]) [] [.endErr 0] = [.invalidCharacter 0x141] := ⟨rfl, rfl, rfl⟩
theorem test_empty_input : expandPseudo (.encode []) = [.encEnd .std 0] := rfl

/-! ## Ports, stalls and reset -/

/-- A stalled engine keeps its word (R237). -/
theorem test_stall :
    nextIs (step { State.reset with encReady := false, encIn := [0x066], moves := [.accept .enc] })
      (fun t => decide (t.encIn = [0x066]) && decide (t.enc = .idle) && decide (t.encOut = [])) = true := by decide
/-- A word waiting is accepted once its output is taken, with no turn listed (R237): here the last symbol and pads. -/
theorem test_waiting_word_is_accepted :
    encIs (step { at9 encAfter66 .idle with encIn := [0x200] }) .idle
      ([.sym 0x59] ++ List.replicate 6 (.sym 0x3D) ++ [.endMsg]) = true := by decide
/-- Reset in the middle of a message (R221 to R223): idle, no beat, the stream cut. -/
theorem test_reset_event :
    nextIs (step { State.reset with enc := encAfter66, encOut := [.sym 0x4D], encIn := [0x06F], moves := [.reset] })
      (fun t => decide (t.enc = .idle) && decide (t.encOut = []) && decide (t.encPast = [[.sym 0x4D]]) &&
        decide (t.encIn = [])) = true := by decide

/-! ## Witnesses: states and operands that meet all the hypotheses of a statement -/

theorem witness_DecodeOfEncodeIsIdentity : Instr.wf .cw9 (.decEnd .hex 0x1FF) = true ∧ Instr.wf .cw8 (.decPut .std 255) = true := by
  decide

theorem witness_EveryPortWordIsOneInstruction :
    InWord.fits .cw8 (.dec 0x3FF) = true ∧ InWord.fits .cw8 (.dec 0x400) = false ∧ InWord.fits .cw8 (.enc 0x3FF) = true := by decide

theorem witness_OutputWordsNameTheirBeats : DecBeat.wf .cw8 (.endErr 255) = true ∧ DecBeat.wf .cw9 (.endErr 0x1FF) = true := by
  decide

theorem witness_IgnoredFieldsChangeNothing :
    (at9 encAfter66 decRunHex).enc.Inv ∧ (at9 encAfter66 decRunHex).enc.busy = true ∧
      (at9 encAfter66 decRunHex).dec.st ≠ .idle := by decide

theorem witness_ReverseLookupInvertsForward : (255 : Nat) < 0x141 ∧ (0xFF : Nat) < 256 := by decide

/-- Both an idle engine and one in a message, at the fullest residue. -/
theorem witness_EncPutEmitsEveryWholeSymbol :
    (at9 .idle .idle).enc.Inv ∧ (at9 ⟨true, .hex, 0xF, 4, 4⟩ .idle).enc.Inv := by decide

theorem witness_EncEndFlushesPadsAndCloses :
    (at9 encAfter66 .idle).enc.Inv ∧ (at9 encAfter66 .idle).enc.PhasePair ∧
      (at9 .idle .idle).enc.Inv ∧ (at9 .idle .idle).enc.PhasePair := by decide

theorem witness_EncoderPhaseAfterBytes : (at9 .idle .idle).enc = .idle := rfl

theorem witness_DecPutOfValidCharacter :
    (let s := at9 .idle ⟨.run, .std, 0x5B, 7, false⟩
     s.dec.Inv ∧ s.dec.st ≠ .skip ∧ s.dec.padp = false ∧
       revLookup (if s.dec.st = .idle then .hex else s.dec.alph) 0x56 = some 21) ∧
    (let s := at9 .idle .idle
     s.dec.Inv ∧ s.dec.st ≠ .skip ∧ s.dec.padp = false ∧
       revLookup (if s.dec.st = .idle then .hex else s.dec.alph) 0x56 = some 31) := by decide

theorem witness_DecPutOfPadDefers : (at9 .idle decPadPending).dec.st ≠ .skip ∧ (at9 .idle .idle).dec.st ≠ .skip := by decide

theorem witness_DecPutAfterPadRaises :
    (at9 .idle decPadPending).dec.st = .run ∧ (at9 .idle decPadPending).dec.padp = true ∧ (0x41 : Nat) ≠ 0x3D := by decide

theorem witness_DecPutOfInvalidCharacterRaises :
    let s := at9 .idle decRunHex
    s.dec.st ≠ .skip ∧ s.dec.padp = false ∧ (0x141 : Nat) ≠ 0x3D ∧
      revLookup (if s.dec.st = .idle then .std else s.dec.alph) 0x141 = none := by decide

theorem witness_DecPutInSkipIsSwallowed : (at9 .idle decSkipping).dec.st = .skip := rfl

theorem witness_DecEndCloses :
    (at9 .idle decSkipping).dec.Inv ∧ (at9 .idle decPadPending).dec.Inv ∧ (at9 .idle .idle).dec.Inv := by decide

theorem witness_DecoderPhaseAfterCharacters :
    (at9 .idle .idle).dec = .idle ∧
      ∀ q ∈ ([(.hex, 0x56), (.std, 0x30)] : List (Alph × Nat)), (revLookup .hex q.2).isSome = true := by decide

theorem witness_InstructionsTouchOnlyTheirEngine :
    (Instr.encPut .std 1).port = .enc ∧ (Instr.decPut .std 1).port = .dec ∧
      nextIs (exec (.encPut .std 1) (at9 .idle .idle)) (fun _ => true) = true ∧
      nextIs (exec (.decPut .std 1) (at9 .idle .idle)) (fun _ => true) = true := by decide

theorem witness_BurstsAreBounded :
    (at9 encAfter66 .idle).enc.Inv ∧ (at9 encAfter66 .idle).enc.PhasePair ∧
      nextIs (exec (.encEnd .std 0) (at9 encAfter66 .idle)) (fun t => t.encOut.length == 8) = true := by decide

theorem witness_OnlyDecPutRaises :
    nextIs (exec (.decPut .std 0x31) (at9 .idle .idle))
      (fun t => decide (t.decOut = (at9 .idle .idle).decOut ++ [.endErr 0x31])) = true ∧
    nextIs (exec (.decPut .std 0x31) (at9 .idle decPadPending))
      (fun t => decide (t.decOut = (at9 .idle decPadPending).decOut ++ [.endErr 0x3D])) = true := by decide

theorem witness_MessageKeepsItsAlphabetUntilItsEnd :
    (at9 encAfter66 decRunHex).enc.busy = true ∧ (at9 encAfter66 decRunHex).dec.st ≠ .idle ∧
      nextIs (exec (.decPut .std 0x30) (at9 encAfter66 decRunHex)) (fun _ => true) = true := by decide

theorem witness_ResetEventEmptiesTheMachine :
    ({ at9 encAfter66 decRunHex with moves := [.reset, .accept .enc] } : State).moves = .reset :: [.accept .enc] := rfl

/-- An engine's turn with a word waiting, on each port. -/
theorem witness_StepRunsTheAcceptedBeat :
    (let s : State := { at9 .idle .idle with encIn := [0x166], moves := [.accept .enc] }
     s.moves = [.accept .enc] ∧ s.encReady = true ∧ s.encIn = [0x166] ∧
       decode s.cfg (.enc 0x166) = .ok (.encPut .hex 0x66)) ∧
    (let s : State := { at9 .idle .idle with decIn := [0x7FF], moves := [.accept .dec] }
     s.moves = [.accept .dec] ∧ s.decReady = true ∧ s.decIn = [0x7FF] ∧
       decode s.cfg (.dec 0x7FF) = .ok (.decEnd .hex 0x1FF)) ∧
    (let s : State := { at9 .idle .idle with encIn := [0x166] }
     s.moves = [] ∧ s.encReady = true ∧ s.encIn = [0x166] ∧
       decode s.cfg (.enc 0x166) = .ok (.encPut .hex 0x66)) ∧
    (let s : State := { at9 .idle .idle with encReady := false, encIn := [0x166], decIn := [0x7FF] }
     s.moves = [] ∧ s.encReady = false ∧ s.decReady = true ∧ s.decIn = [0x7FF] ∧
       decode s.cfg (.dec 0x7FF) = .ok (.decEnd .hex 0x1FF)) := by decide

/-- The other moves of that statement, at a queue that is not empty. -/
theorem witness_StepRunsTheAcceptedBeat_moves :
    (let s : State := { at9 .idle .idle with encIn := [0x166], moves := [.present (.enc 0x200)] }
     s.moves = [.present (.enc 0x200)] ∧ nextIs (step s) (fun t => decide (t.encIn = [0x166, 0x200])) = true) ∧
    (let s : State := { at9 .idle .idle with decIn := [0x041], moves := [.present (.dec 0x400)] }
     s.moves = [.present (.dec 0x400)] ∧ nextIs (step s) (fun t => decide (t.decIn = [0x041, 0x400])) = true) ∧
    (let s : State := { at9 .idle .idle with moves := [.ready .enc false] }
     s.moves = [.ready .enc false] ∧ nextIs (step s) (fun t => !t.encReady && t.decReady) = true) ∧
    (let s : State := { at9 .idle .idle with moves := [.ready .dec false] }
     s.moves = [.ready .dec false] ∧ nextIs (step s) (fun t => t.encReady && !t.decReady) = true) := by decide

theorem witness_StalledOrWaitingEngineLosesNothing :
    (let s : State := { at9 .idle .idle with encReady := false, encIn := [0x166], moves := [.accept .enc] }
     s.moves = [.accept .enc] ∧ s.encReady = false) ∧
    (let s : State := { at9 .idle .idle with decReady := false, decIn := [0x04D], moves := [.accept .dec] }
     s.moves = [.accept .dec] ∧ s.decReady = false) ∧
    (let s : State := { at9 .idle .idle with moves := [.accept .dec] }
     s.moves = [.accept .dec] ∧ s.encIn = [] ∧ s.decIn = []) ∧
    (let s : State := { at9 .idle .idle with encReady := false, encIn := [0x166] }
     s.moves = [] ∧ s.encReady = false ∧ s.decIn = []) := by decide

theorem witness_InvariantHoldsAtReset :
    movesFit .cw9 [.present (.enc 0x3FF), .present (.dec 0x7FF), .accept .dec, .ready .enc false, .reset] = true := by decide

/-- A state in the middle of two messages that meets the invariant, whose next step runs a beat. -/
theorem witness_EveryStepKeepsTheInvariant :
    let s : State := { at9 encAfter66 decPadPending with decIn := [0x7FF], moves := [.accept .dec, .reset] }
    s.Inv ∧ nextIs (step s) (fun _ => true) = true := by decide

theorem witness_NothingFaultsOrSticks :
    ({ at9 encAfter66 decSkipping with decIn := [0x7FF], moves := [.accept .dec] } : State).WordsFit := by decide

/-- A number that is no word of `DEC_IN` is refused, at a turn listed and at one not listed. -/
theorem witness_OnlyOverwideWordsAreRefused :
    step { at9 .idle .idle with decIn := [0x800], moves := [.accept .dec] } = .refused .wordWiderThanPort ∧
      step { at9 .idle .idle with decIn := [0x800] } = .refused .wordWiderThanPort := ⟨rfl, rfl⟩

/-- Two runs that agree on the encoder and differ in everything of the decoder's. -/
theorem witness_EnginesDoNotInterfere :
    let s : State := { at9 encAfter66 .idle with encIn := [0x200], moves := [.accept .enc] }
    let s' : State := { at9 encAfter66 decSkipping with
      encIn := [0x200], decIn := [0x04D], moves := [.accept .dec, .present (.dec 0x400), .accept .enc] }
    s.WordsFit ∧ s'.WordsFit ∧ s.encView = s'.encView ∧
      s.moves.filter (Move.concerns .enc) = s'.moves.filter (Move.concerns .enc) := by decide

theorem witness_EnginesDoNotInterfere_dec :
    let s : State := { at9 .idle decRunHex with decIn := [0x400], moves := [.accept .dec] }
    let s' : State := { at9 encAfter66 decRunHex with
      decIn := [0x400], encIn := [0x200], moves := [.accept .enc, .accept .dec, .ready .enc false] }
    s.WordsFit ∧ s'.WordsFit ∧ s.decView = s'.decView ∧
      s.moves.filter (Move.concerns .dec) = s'.moves.filter (Move.concerns .dec) :=
  ⟨by decide, by decide, rfl, by decide⟩

theorem witness_DecodedLength : decodeMsg .std [0x4D, 0x59, 0x3D] = .ok [0x66] := by decide

theorem witness_DecodeFailsOnFirstInvalidCharacter :
    decodeMsg .std [0x4D, 0x31, 0x3D] = .err 0x31 ∧
      ∀ x ∈ strip [0x4D, 0x59, 0x3D], (revLookup .std x).isSome = true := by decide

theorem witness_EncodeOfConcatenation : [0x66, 0x6F, 0x6F, 0x62, (0x61 : Byte)].length % 5 = 0 := by decide

theorem witness_EncoderComputesEncode : (at9 .idle decRunHex).enc = .idle := rfl

theorem witness_DecoderComputesDecode :
    (at9 encAfter66 .idle).dec = .idle ∧
      decodeMsg (firstAlph [(.hex, 0x56), (.std, 0x53)] .std) [0x56, 0x53] = .ok [0xFF] ∧
      decodeMsg (firstAlph [(.std, 0x3D), (.hex, 0x4D)] .std) [0x3D, 0x4D] = .err 0x3D := by decide

theorem witness_TrailingPadsAreTolerated :
    (at9 encAfter66 .idle).dec = .idle ∧ ∀ c ∈ [0x4D, 0x59], (revLookup .std c).isSome = true := by decide

theorem witness_EncoderThenDecoderReturnsTheBytes : (at9 .idle .idle).Idle := by decide

theorem witness_ObservedResultsAreEncodeAndDecode :
    ∀ p ∈ [PseudoInstr.encode [0x66], .decode [0x141], .decodeHex [0x43, 0x4F, 0x3D]],
      ∀ i ∈ expandPseudo p, i.wf .cw9 = true := by decide

/-- A run of three steps that leaves one word accepted and one waiting, on each port. -/
theorem witness_PortsLoseDuplicateAndReorderNothing :
    let s : State := { at9 encAfter66 .idle with
      encIn := [0x200], decIn := [0x04D, 0x400], moves := [.present (.enc 0x066), .accept .enc, .accept .dec, .reset] }
    nextIs (run 3 s) (fun t => decide (t.encIn = [0x066]) && decide (t.decIn = [0x400])) = true ∧
      .reset ∉ s.moves.take 3 := by decide

/-- The encoder's consumer starts to accept at the end of the list, the decoder's stops. -/
theorem witness_TakenOutputDrainsThePort :
    let s : State := { at9 encAfter66 .idle with
      encReady := false, encIn := [0x06F], decIn := [0x04D], moves := [.accept .enc, .ready .dec false, .present (.enc 0x200), .ready .enc true] }
    s.WordsFit ∧ .reset ∉ s.moves ∧ readyAfter .enc (s.ready .enc) s.moves = true ∧
      s.moves.length + 2 + 1 ≤ 7 := by decide

/-- A host that presents bytes for ever, the encoder's turn coming after each. -/
theorem witness_FairnessDeliversEveryBeat :
    let f : Nat → Move := fun n => if n % 2 = 0 then .present (.enc 0x066) else .accept .enc
    (∀ w ∈ (at9 .idle .idle).decIn, w < 2 ^ ((at9 .idle .idle).cfg.cw + 2)) ∧
      (∀ n w, f n = .present w → w.fits .cw9 = true) ∧ (∀ n, f n ≠ .reset) ∧ Fair .enc true f := by
  intro f
  refine ⟨by decide, fun n w h => ?_, fun n h => ?_, fair_of_no_ready (fun n => ⟨2 * n + 1, by omega, ?_⟩) fun n q c h => ?_⟩
  · by_cases hn : n % 2 = 0 <;> simp only [f, hn, if_true, if_false] at h <;> cases h; rfl
  · by_cases hn : n % 2 = 0 <;> simp only [f, hn, if_true, if_false] at h <;> cases h
  · have hn : ¬ (2 * n + 1) % 2 = 0 := by omega
    simp only [f, hn, if_false]
  · by_cases hn : n % 2 = 0 <;> simp only [f, hn, if_true, if_false] at h <;> cases h

/-- The model's stand-in, and a text with characters wider than the port before and after an invalid narrow one. -/
theorem witness_WideCharactersAreInvalidCharacters :
    (0x00 : Nat) < 256 ∧ (0x00 : Nat) ≠ 0x3D ∧ revLookup .std 0x00 = none ∧ revLookup .hex 0x00 = none ∧
      decodeMsg .std [0x4D, 0x141, 0x31] = .err 0x141 ∧ decodeMsg .std [0x4D, 0x31, 0x141] = .err 0x31 := by decide

/-- An engine free for a message while the other is in the middle of one, for each port. -/
theorem witness_WrapperAnswersEveryOperation :
    (let s : State := { at9 .idle decPadPending with decReady := false, decIn := [0x04D] }
     s.FreeFor (PseudoInstr.encode [0x66]).port) ∧
    (let s : State := { at9 encAfter66 .idle with encReady := false, encIn := [0x066] }
     s.FreeFor (PseudoInstr.decodeHex [0x43, 0x141]).port) := ⟨⟨rfl, rfl, rfl⟩, ⟨rfl, rfl, rfl⟩⟩

end Sys2Proof.Tests
end

section
/-! The registers right after reset (spec/10_state.md R45, R46): both engines are idle, and idle means these values. -/

namespace Sys2Proof.Machine

namespace EncRegs
@[simp] theorem idle_busy : EncRegs.idle.busy = false := rfl
@[simp] theorem idle_alph : EncRegs.idle.alph = .std := rfl
@[simp] theorem idle_acc : EncRegs.idle.acc = 0 := rfl
@[simp] theorem idle_bits : EncRegs.idle.bits = 0 := rfl
@[simp] theorem idle_ocnt : EncRegs.idle.ocnt = 0 := rfl
end EncRegs

namespace DecRegs
@[simp] theorem idle_st : DecRegs.idle.st = .idle := rfl
@[simp] theorem idle_alph : DecRegs.idle.alph = .std := rfl
@[simp] theorem idle_acc : DecRegs.idle.acc = 0 := rfl
@[simp] theorem idle_bits : DecRegs.idle.bits = 0 := rfl
@[simp] theorem idle_padp : DecRegs.idle.padp = false := rfl
end DecRegs

@[simp] theorem resetWith_enc (cfg : Config) : (State.resetWith cfg).enc = .idle := rfl
@[simp] theorem resetWith_dec (cfg : Config) : (State.resetWith cfg).dec = .idle := rfl

/-- Settles O23: reset leaves both engines idle, and the idle registers are R45's reset values. -/
theorem resetLeavesRegistersAtResetValues : Obligations.ResetLeavesRegistersAtResetValues := by
  intro cfg s
  have henc : s.enc = .idle := resetWith_enc cfg
  have hdec : s.dec = .idle := resetWith_dec cfg
  simp [henc, hdec]

end Sys2Proof.Machine
end

section
/-! The encoder's two instructions in closed form (spec/40_encoder.md R97, R98): the latch, the whole emit loop and the
whole flush as equations on the registers, and the two obligations that are these equations on the state. -/

namespace Sys2Proof.Machine

/-! ## Facts about bit groups that the loop of R97 turns on -/

/-- A five-bit value is not changed by dropping bits above the fifth. -/
theorem symVal_ofNat_mod_two_pow (y : Nat) {m : Nat} (h : 5 ≤ m) :
    (BitVec.ofNat 5 (y % 2 ^ m) : SymVal) = BitVec.ofNat 5 y := by
  apply BitVec.eq_of_toNat_eq
  simp only [BitVec.toNat_ofNat]
  exact Nat.mod_mod_of_dvd y (Nat.pow_dvd_pow 2 h)

/-- A group of five bits below bit `m` is the same after the bits from `m` up are dropped. -/
theorem symVal_of_truncated (x : Nat) {k m : Nat} (h : k + 5 ≤ m) :
    (BitVec.ofNat 5 (x % 2 ^ m / 2 ^ k) : SymVal) = BitVec.ofNat 5 (x / 2 ^ k) := by
  obtain ⟨t, rfl⟩ : ∃ t, m = k + t := ⟨m - k, by omega⟩
  rw [Nat.pow_add, Nat.mod_mul_right_div_self]
  exact symVal_ofNat_mod_two_pow _ (by omega)

/-! ## The latch and the residue between beats -/

/-- The latch in one equation (R91). -/
theorem encLatch_eq (a : Alph) (e : EncRegs) :
    encLatch a e = { e with busy := true, alph := if e.busy then e.alph else a } := by
  obtain ⟨busy, alph, acc, bits, ocnt⟩ := e
  cases busy <;> rfl

/-- Idle or busy, an encoder that meets its invariant holds at most 4 residue bits and no others (R37). -/
theorem EncRegs.Inv.residue {e : EncRegs} (h : e.Inv) : e.bits.toNat ≤ 4 ∧ e.acc.toNat < 2 ^ e.bits.toNat := by
  obtain ⟨hidle, hbusy⟩ := h
  cases hb : e.busy with
  | true => exact hbusy hb
  | false => rw [hidle hb]; decide

/-- The residue fits in 4 bits. -/
theorem EncRegs.Inv.acc_lt {e : EncRegs} (h : e.Inv) : e.acc.toNat < 16 := by
  obtain ⟨hbits, hacc⟩ := h.residue
  exact hacc.trans_le (Nat.pow_le_pow_right (by decide) hbits)

/-! ## The loop of `ENC.PUT` -/

/-- What the loop of R97 emits from `n` bits `x`: their groups of five from the top. -/
def encSymbols (a : Alph) (x n : Nat) : List EncBeat :=
  (List.range (n / 5)).map fun j => .sym (fwdLookup a (BitVec.ofNat 5 (x / 2 ^ (n - 5 * (j + 1)))))

/-- Fewer than five bits hold no symbol. -/
theorem encSymbols_of_lt (a : Alph) (x : Nat) {n : Nat} (h : n < 5) : encSymbols a x n = [] := by
  simp [encSymbols, Nat.div_eq_of_lt h]

/-- The first symbol is the top group; the others are those of the bits below it. -/
theorem encSymbols_add_five (a : Alph) (x m : Nat) :
    encSymbols a x (m + 5) =
      .sym (fwdLookup a (BitVec.ofNat 5 (x / 2 ^ m))) :: encSymbols a (x % 2 ^ m) m := by
  have hdiv : (m + 5) / 5 = m / 5 + 1 := by omega
  simp only [encSymbols, hdiv, List.range_succ_eq_map, List.map_cons, List.map_map]
  congr 1
  apply List.map_congr_left
  intro j hj
  have hlt : j < m / 5 := List.mem_range.mp hj
  have hexp : m + 5 - 5 * (j + 1 + 1) = m - 5 * (j + 1) := by omega
  rw [Function.comp_apply, Nat.succ_eq_add_one, hexp, symVal_of_truncated x (by omega)]

/-- The registers after the loop of R97: the bits below the last whole group stay, the symbols are counted. -/
def encDrained (e : EncRegs) : EncRegs :=
  { e with
    acc := BitVec.ofNat 12 (e.acc.toNat % 2 ^ (e.bits.toNat % 5))
    bits := BitVec.ofNat 4 (e.bits.toNat % 5)
    ocnt := e.ocnt + BitVec.ofNat 3 (e.bits.toNat / 5) }

/-- With no symbol held nothing is drained. -/
theorem encDrained_of_lt {e : EncRegs} (h : e.bits.toNat < 5) (hacc : e.acc.toNat < 2 ^ e.bits.toNat) :
    encDrained e = e := by
  simp [encDrained, Nat.mod_eq_of_lt h, Nat.div_eq_of_lt h, Nat.mod_eq_of_lt hacc]

section
variable {e : EncRegs} {m : Nat} (h : e.bits.toNat = m + 5)
include h

/-- `ENC.EMIT` takes five bits (R93). -/
theorem encEmit_bits_toNat_of_eq_add : (encEmit e).1.bits.toNat = m := by
  rw [encEmit_bits_toNat (by omega), h, Nat.add_sub_cancel]

/-- What `ENC.EMIT` leaves in the accumulator: all but the top group (R93). -/
theorem encEmit_acc_toNat : (encEmit e).1.acc.toNat = e.acc.toNat % 2 ^ m := by
  have hbits : (e.bits - 5).toNat = m := encEmit_bits_toNat_of_eq_add h
  have hlow : (encEmit e).1.acc = lowBits e.acc (e.bits - 5).toNat := rfl
  rw [hlow, hbits, lowBits_toNat]

/-- Draining after one symbol has left is draining before. -/
theorem encDrained_encEmit : encDrained (encEmit e).1 = encDrained e := by
  have hbits : (encEmit e).1.bits.toNat = m := encEmit_bits_toNat_of_eq_add h
  have hlow : e.acc.toNat % 2 ^ m % 2 ^ (m % 5) = e.acc.toNat % 2 ^ (m % 5) :=
    Nat.mod_mod_of_dvd _ (Nat.pow_dvd_pow 2 (Nat.mod_le m 5))
  have hcount : (encEmit e).1.ocnt + BitVec.ofNat 3 (m / 5) = e.ocnt + BitVec.ofNat 3 ((m + 5) / 5) := by
    rw [Nat.add_div_right m (by decide), Nat.add_comm (m / 5) 1, BitVec.ofNat_add, ← BitVec.add_assoc]
    rfl
  rw [encDrained, encDrained, hbits, encEmit_acc_toNat h, hlow, h, Nat.add_mod_right, hcount]
  rfl

end

/-- The whole loop (R97), with fuel for every symbol held: the groups of five leave, the rest stays. -/
theorem encEmitLoop_eq : ∀ (fuel : Nat) (e : EncRegs), e.bits.toNat < 5 * fuel + 5 →
    e.acc.toNat < 2 ^ e.bits.toNat →
    encEmitLoop fuel e = (encDrained e, encSymbols e.alph e.acc.toNat e.bits.toNat) := by
  have hstop : ∀ (fuel : Nat) (e : EncRegs), e.bits.toNat < 5 → e.acc.toNat < 2 ^ e.bits.toNat →
      encEmitLoop fuel e = (encDrained e, encSymbols e.alph e.acc.toNat e.bits.toNat) := by
    intro fuel e h hacc
    rw [encEmitLoop_of_lt h, encDrained_of_lt h hacc, encSymbols_of_lt _ _ h]
  intro fuel
  induction fuel with
  | zero => exact hstop 0
  | succ fuel ih =>
    intro e hfuel hacc
    by_cases h5 : 5 ≤ e.bits.toNat
    · obtain ⟨m, hm⟩ : ∃ m, e.bits.toNat = m + 5 := ⟨e.bits.toNat - 5, by omega⟩
      have hbits : (encEmit e).1.bits.toNat = m := encEmit_bits_toNat_of_eq_add hm
      have hx : (encEmit e).1.acc.toNat = e.acc.toNat % 2 ^ m := encEmit_acc_toNat hm
      have hfit : (encEmit e).1.acc.toNat < 2 ^ (encEmit e).1.bits.toNat := by
        rw [hx, hbits]
        exact Nat.mod_lt _ (Nat.two_pow_pos m)
      rw [encEmitLoop_of_le h5, ih _ (by omega) hfit, encDrained_encEmit hm, hbits, hx, hm, encSymbols_add_five]
      simp [encEmit_eq, hm]
    · exact hstop _ e (by omega) hacc

/-! ## `ENC.PUT` -/

/-- `ENC.PUT` on the registers (R97): of the `BITS + 8` bits in hand the groups of five leave, the rest stays. -/
theorem encPutBeat_eq (a : Alph) (d : Byte) {e : EncRegs} (h : e.Inv) :
    encPutBeat a d e =
      ({ busy := true
         alph := if e.busy then e.alph else a
         acc := BitVec.ofNat 12 ((e.acc.toNat * 256 + d.toNat) % 2 ^ ((e.bits.toNat + 8) % 5))
         bits := BitVec.ofNat 4 ((e.bits.toNat + 8) % 5)
         ocnt := e.ocnt + BitVec.ofNat 3 ((e.bits.toNat + 8) / 5) },
        encSymbols (if e.busy then e.alph else a) (e.acc.toNat * 256 + d.toNat) (e.bits.toNat + 8)) := by
  obtain ⟨hbits, hacc⟩ := h.residue
  have habits : (encAbsorb d (encLatch a e)).bits.toNat = e.bits.toNat + 8 := by
    rw [encAbsorb_bits_toNat (by rw [encLatch_eq]; exact hbits.trans (by decide)), encLatch_eq]
  have haacc : (encAbsorb d (encLatch a e)).acc.toNat = e.acc.toNat * 256 + d.toNat := by
    rw [encAbsorb_acc_toNat (by rw [encLatch_eq]; exact h.acc_lt), encLatch_eq]
  have hfit : e.acc.toNat * 256 + d.toNat < 2 ^ (e.bits.toNat + 8) := by
    have := d.isLt
    rw [Nat.pow_add]
    omega
  rw [encPutBeat, encEmitAll, encEmitLoop_eq 3 _ (by omega) (by rw [habits, haacc]; exact hfit), encDrained, habits,
    haacc]
  simp [encAbsorb, encLatch_eq]

/-- Settles O9: `exec` delivers what `encPutBeat_eq` says of the registers. -/
theorem encPutEmitsEveryWholeSymbol : Obligations.EncPutEmitsEveryWholeSymbol := by
  intro a d s hinv al x n
  rw [exec_encPut, encPutBeat_eq a d hinv]
  rfl

/-! ## `ENC.END` -/

/-- `encFlush` emits the residue, if there is one, as one symbol with zero bits below it (R94, R98). -/
theorem encFlush_beats (e : EncRegs) :
    (encFlush e).2 =
      if 0 < e.bits.toNat then [.sym (fwdLookup e.alph (BitVec.ofNat 5 (e.acc.toNat * 2 ^ (5 - e.bits.toNat))))]
      else [] := by
  by_cases hr : 0 < e.bits.toNat
  · simp only [encFlush, encHasResidue, hr, decide_true, if_true, encFinal_eq]
  · simp only [encFlush, encHasResidue, hr, decide_false, if_false, Bool.false_eq_true]

/-- `encFlush` counts the symbol it emits (R94). -/
theorem encFlush_ocnt_toNat (e : EncRegs) :
    (encFlush e).1.ocnt.toNat = (e.ocnt.toNat + (encFlush e).2.length) % 8 := by
  cases hr : encHasResidue e with
  | true => simp [encFlush, hr, encFinal, BitVec.toNat_add]
  | false => simp [encFlush, hr, Nat.mod_eq_of_lt e.ocnt.isLt]

/-- The latch of a message's only beat does not show in the flush: an idle encoder has no residue (R37, R98). -/
theorem encFlush_encLatch_beats (a : Alph) {e : EncRegs} (h : e.Inv) :
    (encFlush (encLatch a e)).2 = (encFlush e).2 := by
  cases hb : e.busy with
  | true => rw [encLatch_of_busy hb]
  | false =>
    obtain ⟨hidle, -⟩ := h
    rw [hidle hb]
    rfl

/-- The latch leaves the output count. -/
theorem encLatch_ocnt (a : Alph) (e : EncRegs) : (encLatch a e).ocnt = e.ocnt := by
  rw [encLatch_eq]

/-- `ENC.END` on the registers (R98): the flush, the pads up to a multiple of 8, `END`, idle. -/
theorem encEndBeat_eq (a : Alph) {e : EncRegs} (h : e.Inv) :
    encEndBeat a e =
      (.idle, (encFlush e).2 ++
        List.replicate ((8 - (e.ocnt.toNat + (encFlush e).2.length) % 8) % 8) (.sym padCode) ++ [.endMsg]) := by
  simp only [encEndBeat, encPadOut_eq, encClose_eq, encFlush_ocnt_toNat, encFlush_encLatch_beats a h, encLatch_ocnt]

/-- The pad characters of the five phases between beats (R39, R98). -/
theorem EncRegs.PhasePair.padCount_mem {e : EncRegs} (h : e.PhasePair) :
    (8 - (e.ocnt.toNat + (encFlush e).2.length) % 8) % 8 ∈ [0, 1, 3, 4, 6] := by
  have hlen : (encFlush e).2.length = if 0 < e.bits.toNat then 1 else 0 := by
    rw [encFlush_beats]
    split <;> rfl
  rw [hlen]
  simp only [EncRegs.PhasePair, List.mem_cons, Prod.mk.injEq, List.not_mem_nil, or_false] at h
  obtain ⟨hb, ho⟩ | ⟨hb, ho⟩ | ⟨hb, ho⟩ | ⟨hb, ho⟩ | ⟨hb, ho⟩ := h <;> rw [hb, ho] <;> decide

/-- Settles O10: `exec` delivers what `encEndBeat_eq` says of the registers, and the pads are those of the phases. -/
theorem encEndFlushesPadsAndCloses : Obligations.EncEndFlushesPadsAndCloses := by
  intro a x s hinv r syms p
  have hsyms : (encFlush s.enc).2 = syms := encFlush_beats s.enc
  refine ⟨?_, fun hphase => ?_⟩
  · rw [exec_encEnd, encEndBeat_eq a hinv, hsyms]
    simp only [State.encDeliver, List.append_assoc]
    rfl
  · have hmem := hphase.padCount_mem
    rwa [hsyms] at hmem

end Sys2Proof.Machine
end

section
/-! The decoder's two instructions in closed form (spec/41_decoder.md R118 to R120): the latch, the drain and the close
as equations on the registers, and the obligations that are these equations on the state. -/

namespace Sys2Proof.Machine

/-! ## The latch and the residue between beats -/

/-- The latch outside `SKIP` in one equation (R111). -/
theorem decLatch_of_not_skip {a : Alph} {d : DecRegs} (h : d.st ≠ .skip) :
    decLatch a d = { d with st := .run, alph := if d.st = .idle then a else d.alph } := by
  obtain ⟨st, alph, acc, bits, padp⟩ := d
  cases st with
  | idle => rfl
  | run => rfl
  | skip => exact absurd rfl h

/-- Whatever its phase, a decoder that meets its invariant holds at most 7 residue bits and no others (R38). -/
theorem DecRegs.Inv.residue {d : DecRegs} (h : d.Inv) : d.bits.toNat ≤ 7 ∧ d.acc.toNat < 2 ^ d.bits.toNat := by
  obtain ⟨hclosed, -, hrun⟩ := h
  by_cases hst : d.st = .run
  · exact hrun hst
  · obtain ⟨hacc, hbits, -⟩ := hclosed hst
    rw [hacc, hbits]
    decide

/-! ## `DEC.PUT` -/

/-- The rest of R118 after the absorb: of the bits held the top eight leave as one byte, if there are eight, and the low
`BITS mod 8` stay. -/
theorem decDrain_eq {d : DecRegs} (hacc : d.acc.toNat < 2 ^ d.bits.toNat) :
    decDrain d =
      ({ d with
          acc := BitVec.ofNat 12 (d.acc.toNat % 2 ^ (d.bits.toNat % 8))
          bits := BitVec.ofNat 4 (d.bits.toNat % 8) },
        if 8 ≤ d.bits.toNat then [.byte (BitVec.ofNat 8 (d.acc.toNat / 2 ^ (d.bits.toNat - 8)))] else []) := by
  by_cases h8 : 8 ≤ d.bits.toNat
  · have hsub : (d.bits - 8).toNat = d.bits.toNat % 8 := by bv_omega
    have hbits : d.bits - 8 = BitVec.ofNat 4 (d.bits.toNat % 8) := by
      rw [← hsub, BitVec.ofNat_toNat, BitVec.setWidth_eq]
    simp only [decDrain, decHasByte, h8, decide_true, if_true, decExtract_eq, hsub]
    rw [hbits]
  · have hmod : d.bits.toNat % 8 = d.bits.toNat := Nat.mod_eq_of_lt (by omega)
    simp [decDrain, decHasByte, h8, hmod, Nat.mod_eq_of_lt hacc]

/-- The pad character has no value in either alphabet (R139). -/
@[simp] theorem revLookup_padChar (a : Alph) : revLookup a padChar = none := by
  cases a <;> decide

/-- After the latch, with no pad pending, a valid character is absorbed (R112, R118). -/
theorem decCharBeat_of_valid {c : Nat} {v : SymVal} {d : DecRegs} (hp : d.padp = false)
    (hv : revLookup d.alph c = some v) : decCharBeat c d = decDrain (decAbsorb v d) := by
  obtain ⟨rfl, -⟩ | ⟨-, hpend, -⟩ | ⟨-, -, hnone, -⟩ | ⟨w, -, -, hw, hbeat⟩ := decCharBeat_cases c d
  · simp at hv
  · simp [hp] at hpend
  · simp [hv] at hnone
  · obtain rfl : v = w := Option.some.inj (hv.symm.trans hw)
    exact hbeat

/-- A valid character is absorbed and drained: of the `BITS + 5` bits in hand the top eight leave, the rest stays (R114,
R115). -/
theorem decDrain_decAbsorb_eq {v : SymVal} {d : DecRegs} (hbits : d.bits.toNat ≤ 7)
    (hacc : d.acc.toNat < 2 ^ d.bits.toNat) :
    decDrain (decAbsorb v d) =
      ({ d with
          acc := BitVec.ofNat 12 ((d.acc.toNat * 32 + v.toNat) % 2 ^ ((d.bits.toNat + 5) % 8))
          bits := BitVec.ofNat 4 ((d.bits.toNat + 5) % 8) },
        if 8 ≤ d.bits.toNat + 5 then
          [.byte (BitVec.ofNat 8 ((d.acc.toNat * 32 + v.toNat) / 2 ^ (d.bits.toNat + 5 - 8)))]
        else []) := by
  have hlt : d.acc.toNat < 128 := hacc.trans_le (Nat.pow_le_pow_right (by decide) hbits)
  have hx : (decAbsorb v d).acc.toNat = d.acc.toNat * 32 + v.toNat := decAbsorb_acc_toNat hlt
  have hn : (decAbsorb v d).bits.toNat = d.bits.toNat + 5 := decAbsorb_bits_toNat (hbits.trans (by decide))
  have hfit : d.acc.toNat * 32 + v.toNat < 2 ^ (d.bits.toNat + 5) := by
    have := v.isLt
    rw [Nat.pow_add]
    omega
  rw [decDrain_eq (by rw [hx, hn]; exact hfit), hx, hn]
  rfl

/-- `DEC.PUT` of a valid character on the registers (R118): the latch, then the absorb and the drain. -/
theorem decPutBeat_of_valid {a : Alph} {c : Nat} {v : SymVal} {d : DecRegs} (h : d.Inv) (hst : d.st ≠ .skip)
    (hp : d.padp = false) (hv : revLookup (if d.st = .idle then a else d.alph) c = some v) :
    decPutBeat a c d =
      ({ st := .run
         alph := if d.st = .idle then a else d.alph
         acc := BitVec.ofNat 12 ((d.acc.toNat * 32 + v.toNat) % 2 ^ ((d.bits.toNat + 5) % 8))
         bits := BitVec.ofNat 4 ((d.bits.toNat + 5) % 8)
         padp := false },
        if 8 ≤ d.bits.toNat + 5 then
          [.byte (BitVec.ofNat 8 ((d.acc.toNat * 32 + v.toNat) / 2 ^ (d.bits.toNat + 5 - 8)))]
        else []) := by
  obtain ⟨hbits, hacc⟩ := h.residue
  rw [decPutBeat_of_not_skip hst, decLatch_of_not_skip hst, decCharBeat_of_valid (v := v),
    decDrain_decAbsorb_eq, hp]
  exacts [hbits, hacc, hp, hv]

/-- Settles O12: `exec` delivers what `decPutBeat_of_valid` says of the registers. -/
theorem decPutOfValidCharacter : Obligations.DecPutOfValidCharacter := by
  intro a c v s hinv hst hpad al x n hv
  rw [exec_decPut, decPutBeat_of_valid hinv hst hpad hv]
  rfl

/-- Settles O16: in `SKIP` the burst is empty and the registers are the old ones. -/
theorem decPutInSkipIsSwallowed : Obligations.DecPutInSkipIsSwallowed := by
  intro a c s hst
  rw [exec_decPut, decPutBeat_of_skip hst, State.decDeliver, List.append_nil]

/-! ## `DEC.END` -/

/-- `DEC.END` on the registers (R119): idle from every phase; only the return from `SKIP` needs that the failure has
cleared the residue and the pending pad (R38). -/
theorem decEndBeat_eq (a : Alph) {d : DecRegs} (h : d.Inv) :
    decEndBeat a d = (.idle, if d.st = .skip then [] else [.endOk]) := by
  by_cases hst : d.st = .skip
  · obtain ⟨hclosed, -, -⟩ := h
    obtain ⟨hacc, hbits, hpad⟩ := hclosed (by simp [hst])
    rw [decEndBeat_of_skip hst, decReturn_eq, hacc, hbits, hpad, if_pos hst]
    rfl
  · rw [decEndBeat_of_not_skip hst, if_neg hst]

/-- Settles O17: `exec` delivers what `decEndBeat_eq` says of the registers. -/
theorem decEndCloses : Obligations.DecEndCloses := by
  intro a x s hinv
  rw [exec_decEnd, decEndBeat_eq a hinv]
  rfl

end Sys2Proof.Machine
end

section
/-! The alphabet tables (spec/42_alphabet_lookup.md): the forward tables are R137's formulas, so each is injective, and
the reverse tables R139 builds from them are their inverses. -/

namespace Sys2Proof.Machine

/-! ## The forward tables -/

/-- `FWD[0]` is `A` to `Z`, then `2` to `7` (R137). -/
theorem fwdLookup_std_toNat (v : SymVal) :
    (fwdLookup .std v).toNat = if v.toNat ≤ 25 then 0x41 + v.toNat else 0x32 + (v.toNat - 26) := by
  revert v
  decide

/-- `FWD[1]` is `0` to `9`, then `A` to `V` (R137). -/
theorem fwdLookup_hex_toNat (v : SymVal) :
    (fwdLookup .hex v).toNat = if v.toNat ≤ 9 then 0x30 + v.toNat else 0x41 + (v.toNat - 10) := by
  revert v
  decide

/-- Settles O6: R137's formula for each of the two alphabets. -/
theorem forwardTablesFollowTheirFormulas : Obligations.ForwardTablesFollowTheirFormulas :=
  fun v => ⟨fwdLookup_std_toNat v, fwdLookup_hex_toNat v⟩

/-- No two symbol values share a code: R137's two ranges are disjoint, and each is strictly increasing. -/
theorem fwdLookup_injective (a : Alph) : Function.Injective (fwdLookup a) := by
  intro v w h
  have hcode : (fwdLookup a v).toNat = (fwdLookup a w).toNat := congrArg BitVec.toNat h
  have hv := v.isLt
  have hw := w.isLt
  apply BitVec.eq_of_toNat_eq
  cases a with
  | std =>
    rw [fwdLookup_std_toNat, fwdLookup_std_toNat] at hcode
    split_ifs at hcode <;> omega
  | hex =>
    rw [fwdLookup_hex_toNat, fwdLookup_hex_toNat] at hcode
    split_ifs at hcode <;> omega

/-! ## The symbol values -/

@[simp] theorem length_symVals : symVals.length = 32 := by simp [symVals]

/-- Every symbol value is listed. -/
@[simp] theorem mem_symVals (v : SymVal) : v ∈ symVals :=
  List.mem_map.mpr ⟨v.toNat, List.mem_range.mpr v.isLt, by simp⟩

/-- No symbol value is listed twice. -/
theorem nodup_symVals : symVals.Nodup := by decide

/-! ## The reverse tables -/

/-- The code is held at the position found (R139). -/
theorem fwdLookup_of_revEntry {a : Alph} {c : Byte} {v : SymVal} (h : revEntry a c = some v) : fwdLookup a v = c :=
  beq_iff_eq.mp (List.find?_some (p := fun w => fwdLookup a w == c) h)

/-- An entry of `REV` is the position of the code in `FWD` (R139): the search stops at the only place there is. -/
theorem revEntry_eq_some_iff {a : Alph} {c : Byte} {v : SymVal} : revEntry a c = some v ↔ fwdLookup a v = c := by
  refine ⟨fwdLookup_of_revEntry, ?_⟩
  rintro rfl
  cases hfind : revEntry a (fwdLookup a v) with
  | none => simpa using List.find?_eq_none.mp hfind v (mem_symVals v)
  | some w => rw [fwdLookup_injective a (fwdLookup_of_revEntry hfind)]

/-- A character is valid with value `v` exactly when it is the code `FWD[a][v]` (R139, R146). -/
theorem revLookup_eq_some_iff {a : Alph} {c : Nat} {v : SymVal} :
    revLookup a c = some v ↔ c = (fwdLookup a v).toNat := by
  by_cases hc : c < 256
  · rw [revLookup_of_byte hc, revEntry_eq_some_iff, ← BitVec.toNat_inj, BitVec.toNat_ofNat, Nat.mod_eq_of_lt hc]
    exact eq_comm
  · have hcode := (fwdLookup a v).isLt
    simp only [revLookup_of_wide (show 255 < c by omega), reduceCtorEq, false_iff]
    omega

/-- The valid characters are the codes of the forward table. -/
theorem isSome_revLookup_iff {a : Alph} {c : Nat} :
    (revLookup a c).isSome = true ↔ ∃ v, (fwdLookup a v).toNat = c := by
  simp only [Option.isSome_iff_exists, revLookup_eq_some_iff, eq_comm (a := c)]

/-- `REV[a]` is the lookup of the codes 0 to 255 in order (R52, R146). -/
theorem revTable_eq_map_revLookup (a : Alph) : revTable a = (List.range 256).map (revLookup a) :=
  List.map_congr_left fun _ hc => (revLookup_of_byte (List.mem_range.mp hc)).symm

/-- The valid codes below 256 are, in some order, the codes of the forward table, each once. -/
theorem filter_isSome_revLookup_perm (a : Alph) :
    ((List.range 256).filter fun c => (revLookup a c).isSome).Perm
      (symVals.map fun v => (fwdLookup a v).toNat) := by
  have hinj : Function.Injective fun v => (fwdLookup a v).toNat :=
    fun _ _ h => fwdLookup_injective a (BitVec.eq_of_toNat_eq h)
  refine (List.perm_ext_iff_of_nodup (List.nodup_range.filter _) (nodup_symVals.map hinj)).mpr fun c => ?_
  simp only [List.mem_filter, List.mem_range, isSome_revLookup_iff, List.mem_map, mem_symVals, true_and,
    and_iff_right_iff_imp]
  rintro ⟨v, rfl⟩
  exact (fwdLookup a v).isLt

/-- `REV[a]` has as many valid entries as there are symbol values (R139). -/
theorem countP_isSome_revTable (a : Alph) : (revTable a).countP Option.isSome = 32 := by
  calc (revTable a).countP Option.isSome
      = ((List.range 256).filter fun c => (revLookup a c).isSome).length := by
        rw [revTable_eq_map_revLookup, List.countP_map, List.countP_eq_length_filter]
        rfl
    _ = (symVals.map fun v => (fwdLookup a v).toNat).length := (filter_isSome_revLookup_perm a).length_eq
    _ = 32 := by simp

/-- Settles O7: the lookup inverts the injective forward table, and `REV[a]` is the lookup of the codes of 8 bits. -/
theorem reverseLookupInvertsForward : Obligations.ReverseLookupInvertsForward := by
  refine ⟨fun _ _ _ => revLookup_eq_some_iff, fun _ _ => revLookup_of_wide, fun a c hc => ?_, fun a => ⟨?_, ?_⟩⟩
  · simp [revTable_eq_map_revLookup, hc]
  · simp [revTable_eq_map_revLookup]
  · exact countP_isSome_revTable a

end Sys2Proof.Machine
end

section
/-! Padding at the decoder (spec/43_padding.md R155 to R159): a pad character is deferred, any other character after it
raises the failure, and pads that `DEC.END` finds pending leave no trace in the result. -/

namespace Sys2Proof.Machine

/-! ## The two rules of `DEC.PUT` that concern a pad character -/

/-- After the latch a pad character is deferred (R155). -/
theorem decCharBeat_padChar (d : DecRegs) : decCharBeat padChar d = ({ d with padp := true }, []) := by
  have hdefer : decCharBeat padChar d = decPadDefer d := by simpa using decCharBeat_cases padChar d
  rw [hdefer, decPadDefer]

/-- After the latch another character raises the failure when a pad is pending (R156). -/
theorem decCharBeat_of_pending {c : Nat} {d : DecRegs} (hc : c ≠ padChar) (hp : d.padp = true) :
    decCharBeat c d = decFail padChar d := by
  simpa [hc, hp] using decCharBeat_cases c d

/-- Settles O13: the latch, then the deferral of `decCharBeat_padChar`, with an empty burst. -/
theorem decPutOfPadDefers : Obligations.DecPutOfPadDefers := by
  intro a s hst
  rw [← padChar_eq, exec_decPut, decPutBeat_of_not_skip hst, decLatch_of_not_skip hst, decCharBeat_padChar,
    State.decDeliver, List.append_nil]

/-- Settles O14: the message is open, so the latch changes nothing, and the failure is that of R121 on the pad. -/
theorem decPutAfterPadRaises : Obligations.DecPutAfterPadRaises := by
  intro a c s hst hp hc
  rw [exec_decPut, decPutBeat_of_not_skip (by simp [hst]), decLatch_of_open (by simp [hst]),
    decCharBeat_of_pending hc hp, decFail_eq]
  rfl

/-! ## Running a message beat by beat -/

/-- A beat that completes is followed by the rest of the sequence. -/
theorem execAll_cons_of_next {i : Instr} {s u : State} (is : List Instr) (h : exec i s = .next u) :
    execAll (i :: is) s = execAll is u := by
  simp only [execAll, h]

@[simp] theorem decBeats_nil (a : Alph) : decBeats a [] = [.decEnd a 0] := rfl

@[simp] theorem decBeats_cons (a : Alph) (c : Nat) (cs : List Nat) :
    decBeats a (c :: cs) = .decPut a c :: decBeats a cs := rfl

/-- A message is its first characters' beats, then the message of the others (R179). -/
theorem decBeats_append (a : Alph) (cs ds : List Nat) :
    decBeats a (cs ++ ds) = (cs.map (a, ·)).map (fun q => .decPut q.1 q.2) ++ decBeats a ds := by
  simp [decBeats, Function.comp_def]

/-! ## Trailing pad characters -/

/-- `DEC.END` outside `SKIP` on the state, whatever residue and pending pad the engine holds (R119, R157). -/
theorem exec_decEnd_of_not_skip (a : Alph) (x : Nat) {s : State} (hst : s.dec.st ≠ .skip) :
    exec (.decEnd a x) s = .next { s with dec := .idle, decOut := s.decOut ++ [.endOk] } := by
  rw [exec_decEnd, decEndBeat_of_not_skip hst]
  rfl

/-- Any number of pad characters before `DEC.END` makes no difference to its outcome (R157, R159). -/
theorem execAll_decBeats_replicate_padChar (a : Alph) (t : Nat) : ∀ s : State, s.dec.st ≠ .skip →
    execAll (decBeats a (List.replicate t padChar)) s =
      .next { s with dec := .idle, decOut := s.decOut ++ [.endOk] } := by
  rw [padChar_eq]
  induction t with
  | zero =>
    intro s hst
    exact execAll_cons_of_next [] (exec_decEnd_of_not_skip a 0 hst)
  | succ t ih =>
    intro s hst
    rw [List.replicate_succ, decBeats_cons, execAll_cons_of_next _ (decPutOfPadDefers a s hst), ih _ (by simp)]

/-! ## Valid characters in an open message -/

/-- The decoder is reading a message in the alphabet `al`: no pad is pending and it holds `r` residue bits, no others
(R38). -/
structure DecRegs.Reading (al : Alph) (r : Nat) (d : DecRegs) : Prop where
  st : d.st = .run
  alph : d.alph = al
  padp : d.padp = false
  bits : d.bits.toNat = r
  bits_le : r ≤ 7
  acc_lt : d.acc.toNat < 2 ^ r

/-- A decoder that reads a message meets its invariant. -/
theorem DecRegs.Reading.inv {al : Alph} {r : Nat} {d : DecRegs} (h : d.Reading al r) : d.Inv :=
  ⟨fun hst => absurd h.st hst, fun hst => by simp [h.st] at hst,
    fun _ => ⟨h.bits.trans_le h.bits_le, by rw [h.bits]; exact h.acc_lt⟩⟩

/-- The latch of a message's first beat leaves the decoder reading, with no residue (R111). -/
theorem reading_decLatch_idle (a : Alph) : (decLatch a .idle).Reading a 0 :=
  ⟨rfl, rfl, rfl, rfl, Nat.zero_le 7, Nat.zero_lt_one⟩

/-- The low `n` bits of `x` are a residue of `n` bits. -/
theorem reading_ofNat (al : Alph) (x : Nat) {n : Nat} (hn : n ≤ 7) :
    DecRegs.Reading al n ⟨.run, al, BitVec.ofNat 12 (x % 2 ^ n), BitVec.ofNat 4 n, false⟩ where
  st := rfl
  alph := rfl
  padp := rfl
  bits := Nat.mod_eq_of_lt (by omega)
  bits_le := hn
  acc_lt := (Nat.mod_le _ _).trans_lt (Nat.mod_lt _ (Nat.two_pow_pos n))

/-- A valid character adds five bits to the residue; eight of them leave as a byte as soon as there are eight (R114,
R115). -/
theorem exec_decPut_of_reading {al : Alph} {r c : Nat} {s : State} (a : Alph) (h : s.dec.Reading al r)
    (hc : (revLookup al c).isSome = true) :
    ∃ (d : DecRegs) (bytes : List Byte),
      exec (.decPut a c) s = .next { s with dec := d, decOut := s.decOut ++ bytes.map .byte } ∧
      d.Reading al ((r + 5) % 8) ∧ bytes.length = (r + 5) / 8 := by
  obtain ⟨v, hv⟩ := Option.isSome_iff_exists.mp hc
  have hput := decPutOfValidCharacter a c v s h.inv (by simp [h.st]) h.padp
  simp only [h.st, reduceCtorEq, if_false, h.alph, h.bits] at hput
  generalize s.dec.acc.toNat * 32 + v.toNat = x at hput
  refine ⟨⟨.run, al, BitVec.ofNat 12 (x % 2 ^ ((r + 5) % 8)), BitVec.ofNat 4 ((r + 5) % 8), false⟩,
    if 8 ≤ r + 5 then [BitVec.ofNat 8 (x / 2 ^ (r + 5 - 8))] else [], (hput hv).trans ?_,
    reading_ofNat al x (by omega), ?_⟩
  · split <;> rfl
  · have hr := h.bits_le
    split <;> simp only [List.length_cons, List.length_nil] <;> omega

/-- Of the bits of the valid characters `ps` and the residue before them, the whole bytes leave and the rest stays,
whatever the `ALPH` fields of the beats (R40, R129). -/
theorem execAll_decPut_of_reading {al : Alph} (ps : List (Alph × Nat)) : ∀ {r : Nat} {s : State},
    s.dec.Reading al r → (∀ q ∈ ps, (revLookup al q.2).isSome = true) →
    ∃ (d : DecRegs) (bytes : List Byte),
      execAll (ps.map fun q => .decPut q.1 q.2) s =
        .next { s with dec := d, decOut := s.decOut ++ bytes.map .byte } ∧
      d.Reading al ((r + 5 * ps.length) % 8) ∧ bytes.length = (r + 5 * ps.length) / 8 := by
  induction ps with
  | nil =>
    intro r s h _
    have hr := h.bits_le
    refine ⟨s.dec, [], by simp [execAll], ?_, ?_⟩
    · simpa [Nat.mod_eq_of_lt (show r < 8 by omega)] using h
    · simp [Nat.div_eq_of_lt (show r < 8 by omega)]
  | cons q ps ih =>
    intro r s h hvalid
    obtain ⟨hq, hps⟩ := List.forall_mem_cons.mp hvalid
    obtain ⟨d₁, bytes₁, hput, hd₁, hlen₁⟩ := exec_decPut_of_reading q.1 h hq
    obtain ⟨d₂, bytes₂, hrest, hd₂, hlen₂⟩ :=
      ih (s := { s with dec := d₁, decOut := s.decOut ++ bytes₁.map .byte }) hd₁ hps
    refine ⟨d₂, bytes₁ ++ bytes₂, ?_, ?_, ?_⟩
    · rw [List.map_cons, execAll_cons_of_next _ hput, hrest]
      simp only [List.map_append, List.append_assoc]
    · have hresidue : ((r + 5) % 8 + 5 * ps.length) % 8 = (r + 5 * (q :: ps).length) % 8 := by
        simp only [List.length_cons]
        omega
      rwa [hresidue] at hd₂
    · simp only [List.length_append, List.length_cons, hlen₁, hlen₂]
      omega

/-! ## The first beat's latch, and the whole message -/

/-- Latching a second time changes nothing (R111). -/
@[simp] theorem decLatch_decLatch (a b : Alph) (d : DecRegs) : decLatch b (decLatch a d) = decLatch a d := by
  obtain ⟨st, alph, acc, bits, padp⟩ := d
  cases st <;> rfl

/-- The latch does not enter `SKIP` (R111). -/
theorem decLatch_st_ne_skip {a : Alph} {d : DecRegs} (h : d.st ≠ .skip) : (decLatch a d).st ≠ .skip := by
  simp [decLatch_of_not_skip h]

/-- A message whose beats all carry `a` may be run from the state its first beat latches (R111). -/
theorem execAll_decBeats_decLatch (a : Alph) (cs : List Nat) {s : State} (hst : s.dec.st ≠ .skip) :
    execAll (decBeats a cs) { s with dec := decLatch a s.dec } = execAll (decBeats a cs) s := by
  have hlatch : (decLatch a s.dec).st ≠ .skip := decLatch_st_ne_skip hst
  cases cs with
  | nil =>
    rw [decBeats_nil, execAll_cons_of_next _ (exec_decEnd_of_not_skip a 0 hst)]
    exact execAll_cons_of_next [] (exec_decEnd_of_not_skip a 0 hlatch)
  | cons c cs =>
    have hput : exec (.decPut a c) { s with dec := decLatch a s.dec } = exec (.decPut a c) s := by
      simp only [exec_decPut, decPutBeat_of_not_skip hst, decPutBeat_of_not_skip hlatch, decLatch_decLatch]
      rfl
    simp only [decBeats_cons, execAll, hput]

/-- Settles O44: the characters leave their bytes and an open message, after which pads and `DEC.END` give the same
outcome for every number of pads. -/
theorem trailingPadsAreTolerated : Obligations.TrailingPadsAreTolerated := by
  intro a cs s hidle hvalid
  have hreading : (decLatch a s.dec).Reading a 0 := by
    rw [hidle]
    exact reading_decLatch_idle a
  obtain ⟨d, out, hchars, hd, hlen⟩ :=
    execAll_decPut_of_reading (cs.map (a, ·)) (s := { s with dec := decLatch a s.dec }) hreading (by simpa using hvalid)
  refine ⟨out, by simpa using hlen, fun t => ?_⟩
  rw [← execAll_decBeats_decLatch a _ (by simp [hidle]), decBeats_append, execAll_append _ _ _ _ hchars,
    execAll_decBeats_replicate_padChar a t _ (by simp [hd.st]), ← hidle]

end Sys2Proof.Machine
end

section
/-! Bit groups: the base `2 ^ w` digits of a number from the top, and the number such digits spell out. The loops of
`Encode` (spec/44_message_operations.md R165) and `Decode` (R170) cut one number of unbounded size into groups of five
and of eight bits; these are the facts about cutting and joining that both turn on. -/

namespace Sys2Proof.Machine

/-! ## Cutting -/

/-- The low `n * w` bits of `z` as `n` groups of `w` bits, the top group first. -/
def bitGroups (w : Nat) : Nat → Nat → List (BitVec w)
  | 0, _ => []
  | n + 1, z => BitVec.ofNat w (z >>> (w * n)) :: bitGroups w n z

@[simp] theorem bitGroups_zero (w z : Nat) : bitGroups w 0 z = [] := rfl

theorem bitGroups_succ (w n z : Nat) :
    bitGroups w (n + 1) z = BitVec.ofNat w (z >>> (w * n)) :: bitGroups w n z := rfl

@[simp] theorem length_bitGroups (w n z : Nat) : (bitGroups w n z).length = n := by
  induction n with
  | zero => rfl
  | succ n ih => rw [bitGroups_succ, List.length_cons, ih]

/-- The top `m` groups are those of the number without the bits of the other `n`. -/
theorem bitGroups_add (w m n z : Nat) :
    bitGroups w (m + n) z = bitGroups w m (z >>> (w * n)) ++ bitGroups w n z := by
  induction m with
  | zero => simp
  | succ m ih =>
    rw [Nat.succ_add, bitGroups_succ, bitGroups_succ, ih, List.cons_append, ← Nat.shiftRight_add, ← Nat.mul_add,
      Nat.add_comm n m]

/-! ## Joining -/

/-- The number spelled out by `acc` followed by the groups `xs`. -/
def joinGroups {w : Nat} (acc : Nat) (xs : List (BitVec w)) : Nat :=
  xs.foldl (fun z x => z * 2 ^ w + x.toNat) acc

@[simp] theorem joinGroups_nil {w : Nat} (acc : Nat) : joinGroups acc ([] : List (BitVec w)) = acc := rfl

@[simp] theorem joinGroups_cons {w : Nat} (acc : Nat) (x : BitVec w) (xs : List (BitVec w)) :
    joinGroups acc (x :: xs) = joinGroups (acc * 2 ^ w + x.toNat) xs := rfl

/-- What the loops of R165 and R170 do to the accumulator for one byte or one symbol value. -/
theorem shiftLeft_or_toNat {w : Nat} (acc : Nat) (x : BitVec w) : acc <<< w ||| x.toNat = acc * 2 ^ w + x.toNat := by
  rw [← Nat.shiftLeft_add_eq_or_of_lt x.isLt, Nat.shiftLeft_eq]

/-- Shifting the groups out leaves what stood before them. -/
@[simp] theorem joinGroups_shiftRight {w : Nat} (xs : List (BitVec w)) :
    ∀ acc, joinGroups acc xs >>> (w * xs.length) = acc := by
  induction xs with
  | nil => simp
  | cons x xs ih =>
    intro acc
    rw [joinGroups_cons, List.length_cons, Nat.mul_succ, Nat.shiftRight_add, ih, Nat.shiftRight_eq_div_pow,
      Nat.mul_comm, Nat.mul_add_div (Nat.two_pow_pos w), Nat.div_eq_of_lt x.isLt, Nat.add_zero]

/-- `n` groups spell out a number of `n * w` bits. -/
theorem joinGroups_zero_lt {w : Nat} (xs : List (BitVec w)) : joinGroups 0 xs < 2 ^ (w * xs.length) := by
  have hshift := joinGroups_shiftRight xs 0
  rw [Nat.shiftRight_eq_div_pow] at hshift
  exact Nat.lt_of_div_eq_zero (Nat.two_pow_pos _) hshift

/-! ## Cutting and joining are inverse -/

/-- Cutting joined groups gives them back. -/
theorem bitGroups_joinGroups {w : Nat} (xs : List (BitVec w)) :
    ∀ acc, bitGroups w xs.length (joinGroups acc xs) = xs := by
  induction xs with
  | nil => simp
  | cons x xs ih =>
    intro acc
    have hhead : BitVec.ofNat w (acc * 2 ^ w + x.toNat) = x := by
      apply BitVec.eq_of_toNat_eq
      rw [BitVec.toNat_ofNat, Nat.mul_add_mod_of_lt x.isLt]
    rw [List.length_cons, bitGroups_succ, joinGroups_cons, joinGroups_shiftRight, ih, hhead]

/-- Joining the groups of `z` to the bits above them gives `z` back. -/
theorem joinGroups_bitGroups (w z n : Nat) : joinGroups (z >>> (w * n)) (bitGroups w n z) = z := by
  induction n with
  | zero => simp
  | succ n ih =>
    have hstep : z >>> (w * (n + 1)) * 2 ^ w + (BitVec.ofNat w (z >>> (w * n))).toNat = z >>> (w * n) := by
      rw [Nat.mul_succ, Nat.shiftRight_add, Nat.shiftRight_eq_div_pow _ w, BitVec.toNat_ofNat, Nat.div_add_mod']
    rw [bitGroups_succ, joinGroups_cons, hstep, ih]

/-- A number of `n * w` bits is spelled out by its `n` groups. -/
theorem joinGroups_zero_bitGroups {w n z : Nat} (h : z < 2 ^ (w * n)) : joinGroups 0 (bitGroups w n z) = z := by
  have htop : z >>> (w * n) = 0 := by rw [Nat.shiftRight_eq_div_pow, Nat.div_eq_of_lt h]
  simpa only [htop] using joinGroups_bitGroups w z n

end Sys2Proof.Machine
end

section
/-! `Encode` in closed form (spec/44_message_operations.md R165): its loops cut the number that the bytes spell out into
groups of five bits, and the pad characters fill the last eight characters. The shape of an encoded string (R166)
follows. -/

namespace Sys2Proof.Machine

/-- The inner loop of R165 cuts off every whole group of the `bc` bits and leaves fewer than five. -/
theorem drainSymbols_eq (a : Alph) (acc : Nat) : ∀ fuel bc, bc < 5 * fuel + 5 →
    drainSymbols a fuel acc bc = ((bitGroups 5 (bc / 5) (acc >>> (bc % 5))).map (fwdLookup a), bc % 5) := by
  intro fuel
  induction fuel with
  | zero =>
    intro bc h
    have hbc : bc < 5 := by omega
    simp [drainSymbols, Nat.div_eq_of_lt hbc, Nat.mod_eq_of_lt hbc]
  | succ fuel ih =>
    intro bc h
    by_cases hbc : 5 ≤ bc
    · obtain ⟨k, rfl⟩ : ∃ k, bc = k + 5 := ⟨bc - 5, by omega⟩
      have htop : k % 5 + 5 * (k / 5) = k := Nat.mod_add_div k 5
      rw [drainSymbols, if_pos hbc, Nat.add_sub_cancel, ih k (by omega), Nat.add_mod_right,
        Nat.add_div_right k (by decide), bitGroups_succ, ← Nat.shiftRight_add, htop, List.map_cons]
    · have hlt : bc < 5 := by omega
      rw [drainSymbols, if_neg hbc, Nat.div_eq_of_lt hlt, Nat.mod_eq_of_lt hlt, bitGroups_zero, List.map_nil]

/-- The loop over the bytes of R165: of the `bc` bits left over and those of the bytes, every whole group of five is a
character, and the accumulator is the number spelled out. -/
theorem encodeLoop_eq (a : Alph) (bs : List Byte) : ∀ acc bc, bc < 5 →
    encodeLoop a acc bc bs =
      ((bitGroups 5 ((bc + 8 * bs.length) / 5) (joinGroups acc bs >>> ((bc + 8 * bs.length) % 5))).map (fwdLookup a),
        joinGroups acc bs, (bc + 8 * bs.length) % 5) := by
  induction bs with
  | nil =>
    intro acc bc h
    simp [encodeLoop, Nat.div_eq_of_lt h, Nat.mod_eq_of_lt h]
  | cons b bs ih =>
    intro acc bc _
    generalize hr : (bc + 8) % 5 = r
    have hcount : (bc + 8 * (b :: bs).length) / 5 = (bc + 8) / 5 + (r + 8 * bs.length) / 5 := by
      simp only [List.length_cons]
      omega
    have hleft : (bc + 8 * (b :: bs).length) % 5 = (r + 8 * bs.length) % 5 := by
      simp only [List.length_cons]
      omega
    have hsplit : (r + 8 * bs.length) % 5 + 5 * ((r + 8 * bs.length) / 5) = 8 * bs.length + r := by omega
    rw [encodeLoop, shiftLeft_or_toNat, drainSymbols_eq a _ _ _ (by omega), hr, ih _ r (by omega), hcount, hleft,
      joinGroups_cons, bitGroups_add, List.map_append, ← Nat.shiftRight_add, hsplit, Nat.shiftRight_add,
      joinGroups_shiftRight]

/-- The symbol values of the message `bs`: its bits, with zero bits appended up to a multiple of five, in groups of
five. -/
def messageSymbols (bs : List Byte) : List SymVal :=
  let l := (8 * bs.length + 4) / 5
  bitGroups 5 l (joinGroups 0 bs <<< (5 * l - 8 * bs.length))

@[simp] theorem length_messageSymbols (bs : List Byte) :
    (messageSymbols bs).length = (8 * bs.length + 4) / 5 := length_bitGroups _ _ _

/-- The characters of R165 before the padding are those of the message's symbol values. -/
theorem encodeSyms_eq (a : Alph) (bs : List Byte) : encodeSyms a bs = (messageSymbols bs).map (fwdLookup a) := by
  rw [encodeSyms, encodeLoop_eq a bs 0 0 (by decide), messageSymbols, Nat.zero_add]
  generalize 8 * bs.length = k
  generalize joinGroups 0 bs = z
  dsimp only
  by_cases hleft : 0 < k % 5
  · have hcount : (k + 4) / 5 = k / 5 + 1 := by omega
    have hfill : 5 * (k / 5 + 1) - k = 5 - k % 5 := by omega
    have htop : z <<< (5 - k % 5) >>> 5 = z >>> (k % 5) := by
      calc z <<< (5 - k % 5) >>> 5
          = z <<< (5 - k % 5) >>> (5 - k % 5 + k % 5) := by rw [Nat.sub_add_cancel (by omega)]
        _ = z >>> (k % 5) := by rw [Nat.shiftRight_add, Nat.shiftLeft_shiftRight]
    rw [if_pos hleft, hcount, hfill, bitGroups_add, htop, List.map_append]
    rfl
  · have hcount : (k + 4) / 5 = k / 5 := by omega
    have hfill : 5 * (k / 5) - k = 0 := by omega
    have hnone : k % 5 = 0 := by omega
    rw [if_neg hleft, hcount, hfill, hnone]
    rfl

/-- `Encode` is the characters of the message's symbol values, then the pad characters that fill the last eight. -/
theorem encodeMsg_eq (a : Alph) (bs : List Byte) :
    encodeMsg a bs = (messageSymbols bs).map (fwdLookup a) ++
      List.replicate (8 * ((bs.length + 4) / 5) - (8 * bs.length + 4) / 5) padCode := by
  have hpads : (8 - (8 * bs.length + 4) / 5 % 8) % 8 = 8 * ((bs.length + 4) / 5) - (8 * bs.length + 4) / 5 := by
    omega
  simp only [encodeMsg, encodeSyms_eq, List.length_map, length_messageSymbols, hpads]

/-- Settles O32: the closed form, whose two parts have the lengths stated. -/
theorem encodedStringShape : Obligations.EncodedStringShape := by
  intro a bs n
  have hlength : (encodeMsg a bs).length = 8 * ((n + 4) / 5) := by
    simp only [encodeMsg_eq, List.length_append, List.length_map, length_messageSymbols, List.length_replicate]
    omega
  refine ⟨hlength, ?_, messageSymbols bs, length_messageSymbols bs, encodeMsg_eq a bs⟩
  rw [← List.length_eq_zero_iff, ← List.length_eq_zero_iff, hlength]
  omega

end Sys2Proof.Machine
end

section
/-! `Strip` (spec/44_message_operations.md R171): it removes exactly the trailing pad characters. -/

namespace Sys2Proof.Machine

/-- `isPad` recognises the one pad character. -/
theorem isPad_iff {c : Nat} : isPad c = true ↔ c = padChar := decide_eq_true_iff

/-- `Strip` is the library's removal of a final segment. -/
theorem strip_eq_rdropWhile (cs : List Nat) : strip cs = cs.rdropWhile isPad := rfl

/-- What `Strip` removes is pad characters. -/
theorem strip_append_pads (cs : List Nat) : ∃ t, strip cs ++ List.replicate t padChar = cs := by
  have hpads : cs.rtakeWhile isPad = List.replicate (cs.rtakeWhile isPad).length padChar :=
    List.eq_replicate_of_mem fun c hc => isPad_iff.mp (List.mem_rtakeWhile_imp hc)
  refine ⟨(cs.rtakeWhile isPad).length, ?_⟩
  rw [← hpads, strip_eq_rdropWhile, List.rdropWhile_append_rtakeWhile]

/-- What `Strip` leaves does not end in a pad character. -/
theorem strip_getLast?_ne (cs : List Nat) : (strip cs).getLast? ≠ some padChar := by
  intro h
  obtain ⟨hne, hlast⟩ := List.mem_getLast?_eq_getLast h
  exact List.rdropWhile_last_not isPad cs hne (isPad_iff.mpr hlast.symm)

/-- Settles O36: the sequence is its `Strip` and the pad characters removed. -/
theorem stripRemovesExactlyTheTrailingPads : Obligations.StripRemovesExactlyTheTrailingPads := by
  intro cs
  obtain ⟨t, ht⟩ := strip_append_pads cs
  exact ⟨t, ht.symm, strip_getLast?_ne cs⟩

/-- Pad characters at the end make no difference to `Strip`. -/
@[simp] theorem strip_append_replicate_padChar (cs : List Nat) (p : Nat) :
    strip (cs ++ List.replicate p padChar) = strip cs := by
  induction p with
  | zero => simp
  | succ p ih =>
    rw [List.replicate_succ', ← List.append_assoc, strip_eq_rdropWhile,
      List.rdropWhile_concat_pos _ _ _ (isPad_iff.mpr rfl), ← strip_eq_rdropWhile, ih]

/-- `Strip` leaves characters that are no pads as they are. -/
theorem strip_eq_self {cs : List Nat} (h : ∀ c ∈ cs, c ≠ padChar) : strip cs = cs := by
  rw [strip_eq_rdropWhile, List.rdropWhile_eq_self_iff]
  exact fun hne hlast => h _ (List.getLast_mem hne) (isPad_iff.mp hlast)

end Sys2Proof.Machine
end

section
/-! `Decode` in closed form (spec/44_message_operations.md R170): it fails on the first invalid character (R174), and
otherwise cuts the number that the symbol values spell out into bytes (R172), which gives an encoded message back
(R175). -/

namespace Sys2Proof.Machine

/-! ## Failure -/

/-- A byte in front does not change a failure. -/
@[simp] theorem consByte_eq_err_iff {b : Byte} {r : DecResult} {c : Nat} : consByte b r = .err c ↔ r = .err c := by
  cases r <;> simp [consByte]

/-- The loop of R170 fails on the first invalid character, whatever bits it holds. -/
theorem decodeLoop_eq_err_iff (a : Alph) (c : Nat) (cs : List Nat) : ∀ acc bc,
    decodeLoop a acc bc cs = .err c ↔ cs.find? (fun x => (revLookup a x).isNone) = some c := by
  induction cs with
  | nil => simp [decodeLoop]
  | cons x cs ih =>
    intro acc bc
    cases hx : revLookup a x with
    | none => simp [decodeLoop, hx]
    | some v =>
      by_cases hbyte : 8 ≤ bc + 5 <;> simp [decodeLoop, hx, hbyte, ih]

/-- `Decode` fails on the first invalid character of `Strip(cs)` (R174). -/
theorem decodeMsg_eq_err_iff {a : Alph} {cs : List Nat} {c : Nat} :
    decodeMsg a cs = .err c ↔ (strip cs).find? (fun x => (revLookup a x).isNone) = some c :=
  decodeLoop_eq_err_iff a c (strip cs) 0 0

/-- `Decode` succeeds exactly when every character of `Strip(cs)` is valid. -/
theorem decodeMsg_ok_iff {a : Alph} {cs : List Nat} :
    (∃ out, decodeMsg a cs = .ok out) ↔ ∀ x ∈ strip cs, (revLookup a x).isSome = true := by
  have hfind : (strip cs).find? (fun x => (revLookup a x).isNone) = none ↔
      ∀ x ∈ strip cs, (revLookup a x).isSome = true := by
    simp [List.find?_eq_none, Option.isSome_iff_ne_none]
  simp only [← hfind, Option.eq_none_iff_forall_ne_some, ne_eq, ← decodeMsg_eq_err_iff]
  cases decodeMsg a cs <;> simp

/-- Settles O37: the failure, the success, and that the pad character is in neither alphabet. -/
theorem decodeFailsOnFirstInvalidCharacter : Obligations.DecodeFailsOnFirstInvalidCharacter :=
  fun a _ _ => ⟨decodeMsg_eq_err_iff, decodeMsg_ok_iff.mpr, revLookup_padChar a⟩

/-! ## Success -/

/-- The character of a symbol value is looked up as that value (R139). -/
@[simp] theorem revLookup_fwdLookup (a : Alph) (v : SymVal) : revLookup a (fwdLookup a v).toNat = some v :=
  revLookup_eq_some_iff.mpr rfl

/-- No character of an alphabet is the pad character. -/
theorem fwdLookup_toNat_ne_padChar (a : Alph) (v : SymVal) : (fwdLookup a v).toNat ≠ padChar := by
  intro h
  have hvalid := revLookup_fwdLookup a v
  simp [h] at hvalid

/-- The loop of R170 on valid characters: of the `bc` bits left over and those of the symbol values, every whole group
of eight is a byte, and the rest is dropped. -/
theorem decodeLoop_eq (a : Alph) (vs : List SymVal) : ∀ acc bc, bc < 8 →
    decodeLoop a acc bc (vs.map fun v => (fwdLookup a v).toNat) =
      .ok (bitGroups 8 ((bc + 5 * vs.length) / 8) (joinGroups acc vs >>> ((bc + 5 * vs.length) % 8))) := by
  induction vs with
  | nil =>
    intro acc bc h
    simp [decodeLoop, Nat.div_eq_of_lt h]
  | cons v vs ih =>
    intro acc bc h
    have hlength : bc + 5 * (v :: vs).length = bc + 5 + 5 * vs.length := by
      simp only [List.length_cons]
      omega
    simp only [List.map_cons, decodeLoop, revLookup_fwdLookup, shiftLeft_or_toNat, hlength, joinGroups_cons]
    by_cases hbyte : 8 ≤ bc + 5
    · obtain ⟨k, hk⟩ : ∃ k, bc + 5 = k + 8 := ⟨bc + 5 - 8, by omega⟩
      have hcount : (k + 8 + 5 * vs.length) / 8 = (k + 5 * vs.length) / 8 + 1 := by omega
      have hleft : (k + 8 + 5 * vs.length) % 8 = (k + 5 * vs.length) % 8 := by omega
      have hsplit : (k + 5 * vs.length) % 8 + 8 * ((k + 5 * vs.length) / 8) = 5 * vs.length + k := by omega
      rw [if_pos hbyte, hk, Nat.add_sub_cancel, ih _ k (by omega), hcount, hleft, bitGroups_succ,
        ← Nat.shiftRight_add, hsplit, Nat.shiftRight_add, joinGroups_shiftRight, consByte]
    · rw [if_neg hbyte, ih _ _ (by omega)]

/-- `Decode` of characters of the alphabet and any number of pad characters: the number the symbol values spell out, in
groups of eight bits from the top. -/
theorem decodeMsg_of_symbols (a : Alph) (vs : List SymVal) (p : Nat) :
    decodeMsg a (vs.map (fun v => (fwdLookup a v).toNat) ++ List.replicate p padChar) =
      .ok (bitGroups 8 (5 * vs.length / 8) (joinGroups 0 vs >>> (5 * vs.length % 8))) := by
  have hpads : ∀ c ∈ vs.map (fun v => (fwdLookup a v).toNat), c ≠ padChar :=
    List.forall_mem_map.mpr fun v _ => fwdLookup_toNat_ne_padChar a v
  rw [decodeMsg, strip_append_replicate_padChar, strip_eq_self hpads, decodeLoop_eq a vs 0 0 (by decide), Nat.zero_add]

/-- Valid characters are the characters of some symbol values. -/
theorem exists_symbols_of_valid {a : Alph} {cs : List Nat} (h : ∀ x ∈ cs, (revLookup a x).isSome = true) :
    ∃ vs : List SymVal, vs.map (fun v => (fwdLookup a v).toNat) = cs := by
  have hrange : cs ∈ {l : List Nat | ∀ x ∈ l, x ∈ Set.range fun v => (fwdLookup a v).toNat} :=
    fun x hx => isSome_revLookup_iff.mp (h x hx)
  rwa [← Set.range_list_map] at hrange

/-- Settles O35: a message that decodes has valid characters only, and of their bits every whole group of eight is a
byte. -/
theorem decodedLength : Obligations.DecodedLength := by
  intro a cs out hok
  obtain ⟨vs, hvs⟩ := exists_symbols_of_valid (decodeMsg_ok_iff.mp ⟨out, hok⟩)
  rw [decodeMsg, ← hvs, decodeLoop_eq a vs 0 0 (by decide), Nat.zero_add] at hok
  obtain rfl := DecResult.ok.inj hok
  rw [length_bitGroups, ← hvs, List.length_map, Nat.mul_comm]

/-! ## The round trip -/

/-- The symbol values of a message spell out the number of its bytes, with the zero bits appended. -/
theorem joinGroups_messageSymbols (bs : List Byte) :
    joinGroups 0 (messageSymbols bs) =
      joinGroups 0 bs <<< (5 * (messageSymbols bs).length - 8 * bs.length) := by
  rw [length_messageSymbols]
  apply joinGroups_zero_bitGroups
  have hbits : 5 * ((8 * bs.length + 4) / 5) = 8 * bs.length + (5 * ((8 * bs.length + 4) / 5) - 8 * bs.length) := by
    omega
  rw [Nat.shiftLeft_eq, hbits, Nat.pow_add, Nat.add_sub_cancel_left]
  exact Nat.mul_lt_mul_of_pos_right (joinGroups_zero_lt bs) (Nat.two_pow_pos _)

/-- Settles O38: the decoder drops exactly the zero bits that the encoder appended, and cuts the number the bytes spell
out into those bytes. -/
theorem decodeOfEncodedMessageIsTheMessage : Obligations.DecodeOfEncodedMessageIsTheMessage := by
  intro a bs
  have hcount : 5 * (messageSymbols bs).length / 8 = bs.length := by
    rw [length_messageSymbols]
    omega
  have hdropped : 5 * (messageSymbols bs).length % 8 = 5 * (messageSymbols bs).length - 8 * bs.length := by
    rw [length_messageSymbols]
    omega
  rw [encodeMsg_eq, List.map_append, List.map_map, List.map_replicate]
  calc decodeMsg a ((messageSymbols bs).map (fun v => (fwdLookup a v).toNat) ++ List.replicate _ padChar)
      = .ok (bitGroups 8 bs.length (joinGroups 0 bs)) := by
        rw [decodeMsg_of_symbols, hcount, hdropped, joinGroups_messageSymbols, Nat.shiftLeft_shiftRight]
    _ = .ok bs := by rw [bitGroups_joinGroups]

end Sys2Proof.Machine
end

section
/-! The word formats (spec/30_encoding.md R70 to R79): on both kinds of port a word is two flag bits above a field, so
that reading the three parts of a word and laying them side by side are inverse to each other. -/

namespace Sys2Proof

/-! ## Two flag bits above a field of `n` bits -/

/-- The flag bits together stand above the field. -/
theorem fields_eq (n : Nat) (hi lo : Bool) (c : Nat) :
    hi.toNat * 2 ^ (n + 1) + lo.toNat * 2 ^ n + c = (2 * hi.toNat + lo.toNat) * 2 ^ n + c := by
  rw [Nat.pow_succ]
  ring

section
variable (n : Nat) (hi lo : Bool) {c : Nat} (h : c < 2 ^ n)
include h

theorem testBit_fields_high : (hi.toNat * 2 ^ (n + 1) + lo.toNat * 2 ^ n + c).testBit (n + 1) = hi := by
  have hlow : lo.toNat * 2 ^ n + c < 2 ^ (n + 1) := by
    have := lo.toNat_le
    rw [Nat.pow_succ]
    nlinarith
  rw [Nat.add_assoc, Nat.mul_comm, Nat.testBit_two_pow_mul_add _ hlow]
  cases hi <;> simp

theorem testBit_fields_low : (hi.toNat * 2 ^ (n + 1) + lo.toNat * 2 ^ n + c).testBit n = lo := by
  rw [fields_eq, Nat.mul_comm, Nat.testBit_two_pow_mul_add _ h]
  cases hi <;> cases lo <;> simp

theorem fields_mod : (hi.toNat * 2 ^ (n + 1) + lo.toNat * 2 ^ n + c) % 2 ^ n = c := by
  rw [fields_eq, Nat.mul_add_mod_of_lt h]

theorem fields_lt : hi.toNat * 2 ^ (n + 1) + lo.toNat * 2 ^ n + c < 2 ^ (n + 2) := by
  have h1 : 2 ^ (n + 1) = 2 * 2 ^ n := by rw [Nat.pow_succ, Nat.mul_comm]
  have h2 : 2 ^ (n + 2) = 4 * 2 ^ n := by rw [Nat.pow_add, Nat.mul_comm]
  cases hi <;> cases lo <;> simp <;> omega

end

/-- A number of `n + 2` bits is its two top bits and its low `n` bits. -/
theorem fields_of_lt {n w : Nat} (h : w < 2 ^ (n + 2)) :
    (w.testBit (n + 1)).toNat * 2 ^ (n + 1) + (w.testBit n).toNat * 2 ^ n + w % 2 ^ n = w := by
  have htop : w / 2 ^ (n + 1) % 2 = w / 2 ^ (n + 1) := by
    apply Nat.mod_eq_of_lt
    rw [Nat.div_lt_iff_lt_mul (Nat.two_pow_pos _), Nat.mul_comm, ← Nat.pow_succ]
    exact h
  have hnext : w / 2 ^ (n + 1) = w / 2 ^ n / 2 := by rw [Nat.pow_succ, Nat.div_div_eq_div_mul]
  rw [Nat.toNat_testBit, Nat.toNat_testBit, htop, hnext, Nat.pow_succ]
  calc w / 2 ^ n / 2 * (2 ^ n * 2) + w / 2 ^ n % 2 * 2 ^ n + w % 2 ^ n
      = 2 ^ n * (2 * (w / 2 ^ n / 2) + w / 2 ^ n % 2) + w % 2 ^ n := by ring
    _ = w := by rw [Nat.div_add_mod, Nat.div_add_mod]

/-! ## The alphabet bit -/

@[simp] theorem ofBit_toBit (a : Alph) : Alph.ofBit a.toBit = a := by cases a <;> rfl

@[simp] theorem toBit_ofBit (b : Bool) : (Alph.ofBit b).toBit = b := by cases b <;> rfl

/-! ## `ENC_IN` -/

/-- A word of `ENC_IN` as a number: `END`, `ALPH` and `DATA` side by side (R71). -/
theorem encodeEncIn_toNat (isEnd : Bool) (a : Alph) (d : Byte) :
    (encodeEncIn isEnd a d).toNat = isEnd.toNat * 2 ^ (8 + 1) + a.toBit.toNat * 2 ^ 8 + d.toNat := by
  have hd := d.isLt
  simp only [encodeEncIn, BitVec.toNat_append, BitVec.toNat_ofBool]
  have ha : a.toBit.toNat < 2 ^ 1 := a.toBit.toNat_lt
  rw [← Nat.shiftLeft_add_eq_or_of_lt hd, ← Nat.shiftLeft_add_eq_or_of_lt ha]
  simp only [Nat.shiftLeft_eq]
  omega

theorem decodeEncIn_encodeEncIn (isEnd : Bool) (a : Alph) (d : Byte) :
    decodeEncIn (encodeEncIn isEnd a d) = if isEnd then .encEnd a d else .encPut a d := by
  have hend : (encodeEncIn isEnd a d).getLsbD 9 = isEnd := by
    rw [BitVec.getLsbD, encodeEncIn_toNat, testBit_fields_high _ _ _ d.isLt]
  have halph : (encodeEncIn isEnd a d).getLsbD 8 = a.toBit := by
    rw [BitVec.getLsbD, encodeEncIn_toNat, testBit_fields_low _ _ _ d.isLt]
  have hdata : (encodeEncIn isEnd a d).extractLsb' 0 8 = d := by
    apply BitVec.eq_of_toNat_eq
    rw [BitVec.extractLsb'_toNat, Nat.shiftRight_zero, encodeEncIn_toNat, fields_mod _ _ _ d.isLt]
  simp only [decodeEncIn, hend, halph, hdata, ofBit_toBit]

/-- The three parts of a word of ten bits, side by side, are the word. -/
theorem encodeEncIn_parts (w : BitVec 10) :
    encodeEncIn (w.getLsbD 9) (.ofBit (w.getLsbD 8)) (w.extractLsb' 0 8) = w := by
  apply BitVec.eq_of_toNat_eq
  rw [encodeEncIn_toNat, toBit_ofBit, BitVec.extractLsb'_toNat, Nat.shiftRight_zero]
  exact fields_of_lt (n := 8) w.isLt

theorem encode_decodeEncIn (cfg : Config) (w : BitVec 10) : encode cfg (decodeEncIn w) = .enc w := by
  have hparts := encodeEncIn_parts w
  unfold decodeEncIn
  cases hend : w.getLsbD 9 with
  | false => rw [hend] at hparts; exact congrArg InWord.enc hparts
  | true => rw [hend] at hparts; exact congrArg InWord.enc hparts

/-! ## `DEC_IN` -/

theorem decodeDecIn_encodeDecIn (cfg : Config) (isEnd : Bool) (a : Alph) {c : Nat} (h : c < 2 ^ cfg.cw) :
    decodeDecIn cfg (encodeDecIn cfg isEnd a c) = .ok (if isEnd then .decEnd a c else .decPut a c) := by
  rw [decodeDecIn, encodeDecIn, if_pos (fields_lt _ _ _ h), testBit_fields_low _ _ _ h, testBit_fields_high _ _ _ h,
    fields_mod _ _ _ h, ofBit_toBit]

theorem encode_decodeDecIn {cfg : Config} {w : Nat} (h : w < 2 ^ (cfg.cw + 2)) :
    ∃ i, decodeDecIn cfg w = .ok i ∧ i.wf cfg = true ∧ i.port = .dec ∧ encode cfg i = .dec w := by
  have hchar : w % 2 ^ cfg.cw < 2 ^ cfg.cw := Nat.mod_lt _ (Nat.two_pow_pos _)
  have hparts := fields_of_lt h
  rw [← toBit_ofBit (w.testBit cfg.cw)] at hparts
  refine ⟨_, if_pos h, ?_⟩
  cases hend : w.testBit (cfg.cw + 1) with
  | false => rw [hend] at hparts; exact ⟨decide_eq_true hchar, rfl, congrArg InWord.dec hparts⟩
  | true => rw [hend] at hparts; exact ⟨decide_eq_true hchar, rfl, congrArg InWord.dec hparts⟩

/-! ## Both ports -/

/-- Decoding the word of a well-formed instruction gives it back (R76). -/
theorem decode_encode {cfg : Config} {i : Instr} (h : i.wf cfg = true) : decode cfg (encode cfg i) = .ok i := by
  cases i with
  | encPut a d => simp [encode, decode, decodeEncIn_encodeEncIn]
  | encEnd a x => simp [encode, decode, decodeEncIn_encodeEncIn]
  | decPut a c => simp [encode, decode, decodeDecIn_encodeDecIn cfg false a (of_decide_eq_true h)]
  | decEnd a x => simp [encode, decode, decodeDecIn_encodeDecIn cfg true a (of_decide_eq_true h)]

/-- A word of its port's width decodes to a well-formed instruction of the port, whose word it is (R77). -/
theorem encode_decode {cfg : Config} {w : InWord} (h : w.fits cfg = true) :
    ∃ i, decode cfg w = .ok i ∧ i.wf cfg = true ∧ i.port = w.port ∧ encode cfg i = w := by
  cases w with
  | enc w =>
    have hkind : (decodeEncIn w).wf cfg = true ∧ (decodeEncIn w).port = .enc := by
      unfold decodeEncIn
      split <;> exact ⟨rfl, rfl⟩
    exact ⟨_, rfl, hkind.1, hkind.2, encode_decodeEncIn cfg w⟩
  | dec w => exact encode_decodeDecIn (of_decide_eq_true h)

/-- A number that is no word of its port is rejected (log entry 8). -/
theorem decode_of_not_fits {cfg : Config} {w : InWord} (h : w.fits cfg = false) :
    decode cfg w = .error .wordWiderThanPort := by
  cases w with
  | enc w => cases h
  | dec w => exact if_neg (of_decide_eq_false h)

/-- An instruction's word stands on the instruction's port and fits it (R70, R76). -/
theorem encode_port_fits {cfg : Config} {i : Instr} (h : i.wf cfg = true) :
    (encode cfg i).port = i.port ∧ (encode cfg i).fits cfg = true := by
  cases i with
  | encPut a d => exact Laws.PortAndWidth.encPut a d cfg h
  | encEnd a x => exact Laws.PortAndWidth.encEnd a x cfg h
  | decPut a c => exact Laws.PortAndWidth.decPut a c cfg h
  | decEnd a x => exact Laws.PortAndWidth.decEnd a x cfg h

/-- Settles O2: the two formats are read back part by part, and the word is on its port. -/
theorem decodeOfEncodeIsIdentity : Obligations.DecodeOfEncodeIsIdentity :=
  fun _ _ h => ⟨decode_encode h, encode_port_fits h⟩

/-- Settles O3: a word that fits is its parts side by side; one that does not is rejected. -/
theorem everyPortWordIsOneInstruction : Obligations.EveryPortWordIsOneInstruction :=
  fun _ _ => ⟨encode_decode, decode_of_not_fits⟩

/-- Settles O1: the eleven words, each decoded. -/
theorem writtenOutWordsDecode : Obligations.WrittenOutWordsDecode := by
  unfold Obligations.WrittenOutWordsDecode
  decide

/-! ## The output beats -/

theorem EncBeat.toWord_sym_toNat (c : Byte) : (EncBeat.sym c).toWord.toNat = c.toNat := by
  rw [EncBeat.toWord, BitVec.toNat_setWidth, Nat.mod_eq_of_lt (c.isLt.trans (by decide))]

theorem EncBeat.ofWord_toWord (b : EncBeat) : EncBeat.ofWord b.toWord = b := by
  cases b with
  | endMsg => rfl
  | sym c =>
    have hend : (EncBeat.sym c).toWord.getLsbD 8 = false := by
      rw [BitVec.getLsbD, EncBeat.toWord_sym_toNat, Nat.testBit_lt_two_pow c.isLt]
    have hsym : (EncBeat.sym c).toWord.extractLsb' 0 8 = c := by
      apply BitVec.eq_of_toNat_eq
      rw [BitVec.extractLsb'_toNat, Nat.shiftRight_zero, EncBeat.toWord_sym_toNat, Nat.mod_eq_of_lt c.isLt]
    rw [EncBeat.ofWord, hend, hsym]
    rfl

/-- The two closing beats have `END`, `STATUS` and `VAL` side by side (R74). -/
theorem DecBeat.toWord_endErr (cfg : Config) (c : Nat) :
    (DecBeat.endErr c).toWord cfg = true.toNat * 2 ^ (cfg.cw + 1) + true.toNat * 2 ^ cfg.cw + c := by
  simp [DecBeat.toWord]

theorem DecBeat.toWord_endOk (cfg : Config) :
    DecBeat.endOk.toWord cfg = true.toNat * 2 ^ (cfg.cw + 1) + false.toNat * 2 ^ cfg.cw + 0 := by
  simp [DecBeat.toWord]

/-- The word of a beat of `DEC_OUT` fits the port and names the beat (R74). -/
theorem DecBeat.ofWord_toWord {cfg : Config} {b : DecBeat} (h : b.wf cfg = true) :
    b.toWord cfg < 2 ^ (cfg.cw + 2) ∧ DecBeat.ofWord cfg (b.toWord cfg) = b := by
  cases b with
  | byte b =>
    have hb : b.toNat < 2 ^ cfg.cw := Machine.byte_lt_cw cfg b.isLt
    have hend : b.toNat < 2 ^ (cfg.cw + 1) := hb.trans (Nat.pow_lt_pow_succ (by decide))
    refine ⟨hend.trans (Nat.pow_lt_pow_succ (by decide)), ?_⟩
    simp [DecBeat.toWord, DecBeat.ofWord, Nat.testBit_lt_two_pow hend]
  | endOk =>
    have hzero : 0 < 2 ^ cfg.cw := Nat.two_pow_pos _
    rw [DecBeat.toWord_endOk, DecBeat.ofWord, testBit_fields_high _ _ _ hzero, testBit_fields_low _ _ _ hzero]
    exact ⟨fields_lt _ _ _ hzero, rfl⟩
  | endErr c =>
    have hc : c < 2 ^ cfg.cw := of_decide_eq_true h
    rw [DecBeat.toWord_endErr, DecBeat.ofWord, testBit_fields_high _ _ _ hc, testBit_fields_low _ _ _ hc,
      fields_mod _ _ _ hc]
    exact ⟨fields_lt _ _ _ hc, rfl⟩

/-- Settles O4: the values are the formats', and each beat is read back from its word. -/
theorem outputWordsNameTheirBeats : Obligations.OutputWordsNameTheirBeats :=
  ⟨fun c => by rw [EncBeat.toWord_sym_toNat, Nat.zero_add], rfl, fun _ _ _ => ⟨rfl, rfl, rfl⟩,
    EncBeat.ofWord_toWord, fun _ _ => DecBeat.ofWord_toWord⟩

end Sys2Proof
end

section
/-! The reverse tables as ranges of codes (spec/42_alphabet_lookup.md R140, R141): R137's two formulas, inverted. -/

namespace Sys2Proof.Machine

/-- A symbol value is the number `n` below 32 exactly when `n` is its value. -/
theorem symVal_ofNat_eq_iff {n : Nat} (hn : n < 32) (v : SymVal) : BitVec.ofNat 5 n = v ↔ n = v.toNat := by
  rw [← BitVec.toNat_inj, BitVec.toNat_ofNat, Nat.mod_eq_of_lt hn]

/-- `REV[0]` written out (R140). -/
theorem revLookup_std (c : Nat) :
    revLookup .std c =
      if 0x32 ≤ c ∧ c ≤ 0x37 then some (BitVec.ofNat 5 (c - 0x32 + 26))
      else if 0x41 ≤ c ∧ c ≤ 0x5A then some (BitVec.ofNat 5 (c - 0x41)) else none := by
  ext v
  have hv := v.isLt
  rw [revLookup_eq_some_iff, fwdLookup_std_toNat]
  split_ifs <;> simp (disch := omega) only [Option.some.injEq, symVal_ofNat_eq_iff, iff_false] <;> omega

/-- `REV[1]` written out (R141). -/
theorem revLookup_hex (c : Nat) :
    revLookup .hex c =
      if 0x30 ≤ c ∧ c ≤ 0x39 then some (BitVec.ofNat 5 (c - 0x30))
      else if 0x41 ≤ c ∧ c ≤ 0x56 then some (BitVec.ofNat 5 (c - 0x41 + 10)) else none := by
  ext v
  have hv := v.isLt
  rw [revLookup_eq_some_iff, fwdLookup_hex_toNat]
  split_ifs <;> simp (disch := omega) only [Option.some.injEq, symVal_ofNat_eq_iff, iff_false] <;> omega

/-- Settles O8: each table inverts its formula range by range. -/
theorem reverseTablesAsRanges : Obligations.ReverseTablesAsRanges := fun c => ⟨revLookup_std c, revLookup_hex c⟩

end Sys2Proof.Machine
end

section
/-! Single instructions (spec/10_state.md, spec/40_encoder.md, spec/41_decoder.md, spec/60_exceptions.md): what each
touches, which of its fields it reads, how long its burst is, and which of them can raise `InvalidCharacter`. -/

namespace Sys2Proof.Machine

/-! ## The frame -/

/-- Settles O19: an instruction delivers one engine's registers and burst, and nothing else. -/
theorem instructionsTouchOnlyTheirEngine : Obligations.InstructionsTouchOnlyTheirEngine := by
  intro i s t h
  obtain ⟨hp, r, hi⟩ | ⟨hp, r, hi⟩ := exec_cases i s
  · obtain rfl := Host.Outcome.next.inj (hi.symm.trans h)
    exact ⟨fun _ => ⟨rfl, rfl, _, rfl⟩, by simp [hp], rfl, rfl, rfl, rfl, rfl, rfl, rfl, rfl⟩
  · obtain rfl := Host.Outcome.next.inj (hi.symm.trans h)
    exact ⟨by simp [hp], fun _ => ⟨rfl, rfl, _, rfl⟩, rfl, rfl, rfl, rfl, rfl, rfl, rfl, rfl⟩

/-! ## Ignored fields -/

/-- `ENC.END` does not read its alphabet (R77, R98). -/
theorem encEndBeat_alph_irrelevant (a b : Alph) {e : EncRegs} (h : e.Inv) : encEndBeat a e = encEndBeat b e := by
  rw [encEndBeat_eq a h, encEndBeat_eq b h]

/-- `DEC.END` does not read its alphabet (R77, R119). -/
theorem decEndBeat_alph_irrelevant (a b : Alph) (d : DecRegs) : decEndBeat a d = decEndBeat b d := by
  by_cases hst : d.st = .skip
  · rw [decEndBeat_of_skip hst, decEndBeat_of_skip hst]
  · rw [decEndBeat_of_not_skip hst, decEndBeat_of_not_skip hst]

/-- In an open message `ENC.PUT` does not read its alphabet (R77, R91). -/
theorem encPutBeat_alph_irrelevant (a b : Alph) (d : Byte) {e : EncRegs} (h : e.busy = true) :
    encPutBeat a d e = encPutBeat b d e := by
  rw [encPutBeat, encPutBeat, encLatch_of_busy h, encLatch_of_busy h]

/-- In an open message `DEC.PUT` does not read its alphabet (R77, R111). -/
theorem decPutBeat_alph_irrelevant (a b : Alph) (c : Nat) {d : DecRegs} (h : d.st ≠ .idle) :
    decPutBeat a c d = decPutBeat b c d := by
  by_cases hst : d.st = .skip
  · rw [decPutBeat_of_skip hst, decPutBeat_of_skip hst]
  · rw [decPutBeat_of_not_skip hst, decPutBeat_of_not_skip hst, decLatch_of_open h, decLatch_of_open h]

/-- Settles O5: none of the four rules reads the ignored fields of its beat. -/
theorem ignoredFieldsChangeNothing : Obligations.IgnoredFieldsChangeNothing := by
  intro a a' d x x' c y y' s hinv
  simp only [exec_encEnd, exec_decEnd, exec_encPut, exec_decPut]
  refine ⟨?_, ?_, fun hbusy => ?_, fun hst => ?_⟩
  · rw [encEndBeat_alph_irrelevant a a' hinv]
  · rw [decEndBeat_alph_irrelevant a a']
  · rw [encPutBeat_alph_irrelevant a a' d hbusy]
  · rw [decPutBeat_alph_irrelevant a a' c hst]

/-! ## The failure -/

/-- After the latch, with no pad pending, an invalid character raises the failure (R118, R121). -/
theorem decCharBeat_of_invalid {c : Nat} {d : DecRegs} (hc : c ≠ padChar) (hp : d.padp = false)
    (hv : revLookup d.alph c = none) : decCharBeat c d = decFail c d := by
  simpa [hc, hp, hv] using decCharBeat_cases c d

/-- Settles O15: the latch, then the failure of R121 on the character. -/
theorem decPutOfInvalidCharacterRaises : Obligations.DecPutOfInvalidCharacterRaises := by
  intro a c s hst hp hc al hv
  rw [exec_decPut, decPutBeat_of_not_skip hst, decLatch_of_not_skip hst, decCharBeat_of_invalid, decFail_eq]
  exacts [rfl, hc, hp, hv]

/-- A byte leaves by `DEC.EXTRACT`, or nothing (R115, R118). -/
theorem decDrain_beats (d : DecRegs) : (decDrain d).2 = [] ∨ ∃ b, (decDrain d).2 = [.byte b] := by
  cases h : decHasByte d with
  | false => exact .inl (by simp [decDrain, h])
  | true => exact .inr ⟨_, by simp [decDrain, h, decExtract_eq]; rfl⟩

/-- After the latch the failure names the pad character if one is pending, and else the character itself, which is then
invalid (R112, R156, R205). -/
theorem decCharBeat_raises {c c' : Nat} {d : DecRegs} (h : (decCharBeat c' d).2 = [.endErr c]) :
    (decCharBeat c' d).1.st = .skip ∧ c' ≠ padChar ∧
      if d.padp then c = padChar else c = c' ∧ revLookup d.alph c' = none := by
  obtain ⟨-, hbeat⟩ | ⟨hc, hp, hbeat⟩ | ⟨hc, hp, hv, hbeat⟩ | ⟨v, -, -, -, hbeat⟩ := decCharBeat_cases c' d
  · simp [hbeat, decPadDefer] at h
  · simp_all [decFail_eq]
  · simp_all [decFail_eq]
  · obtain hnone | ⟨b, hbyte⟩ := decDrain_beats (decAbsorb v d)
    · simp [hbeat, hnone] at h
    · simp [hbeat, hbyte] at h

/-- `DEC.END` does not raise (R119, R197). -/
theorem decEndBeat_ne_endErr (a : Alph) (d : DecRegs) (c : Nat) : (decEndBeat a d).2 ≠ [.endErr c] := by
  by_cases hst : d.st = .skip
  · simp [decEndBeat_of_skip hst, decReturn_eq]
  · simp [decEndBeat_of_not_skip hst]

/-- Settles O21: the encoder's beats leave the stream of the decoder, `DEC.END` closes it without an error, and of
`DEC.PUT` it is the rule after the latch that can raise. -/
theorem onlyDecPutRaises : Obligations.OnlyDecPutRaises := by
  intro i s t c h hout
  cases i with
  | encPut a d => obtain rfl := Host.Outcome.next.inj h; simp at hout
  | encEnd a x => obtain rfl := Host.Outcome.next.inj h; simp at hout
  | decEnd a x =>
    obtain rfl := Host.Outcome.next.inj h
    exact absurd (List.append_cancel_left hout) (decEndBeat_ne_endErr a s.dec c)
  | decPut a c' =>
    obtain rfl := Host.Outcome.next.inj h
    have hburst : (decPutBeat a c' s.dec).2 = [.endErr c] := List.append_cancel_left hout
    by_cases hst : s.dec.st = .skip
    · simp [decPutBeat_of_skip hst] at hburst
    · rw [decPutBeat_of_not_skip hst, decLatch_of_not_skip hst] at hburst
      obtain ⟨hskip, hpad, hnamed⟩ := decCharBeat_raises hburst
      refine ⟨a, c', rfl, hst, ?_, hpad, hnamed⟩
      rwa [decDeliver_dec, decPutBeat_of_not_skip hst, decLatch_of_not_skip hst]

/-! ## The alphabet of an open message -/

/-- The loop of R97 does not close the message or change its alphabet. -/
theorem encEmitLoop_keeps_message : ∀ (fuel : Nat) (e : EncRegs),
    (encEmitLoop fuel e).1.busy = e.busy ∧ (encEmitLoop fuel e).1.alph = e.alph
  | 0, _ => ⟨rfl, rfl⟩
  | fuel + 1, e => by
    by_cases h5 : 5 ≤ e.bits.toNat
    · rw [encEmitLoop_of_le h5]
      exact encEmitLoop_keeps_message fuel (encEmit e).1
    · rw [encEmitLoop_of_lt (by omega)]
      exact ⟨rfl, rfl⟩

theorem encPutBeat_keeps_message (a : Alph) (d : Byte) {e : EncRegs} (h : e.busy = true) :
    (encPutBeat a d e).1.busy = true ∧ (encPutBeat a d e).1.alph = e.alph := by
  obtain ⟨hbusy, halph⟩ := encEmitLoop_keeps_message 3 (encAbsorb d e)
  rw [encPutBeat, encLatch_of_busy h]
  exact ⟨hbusy.trans h, halph⟩

/-- `DEC.EXTRACT` does not close the message or change its alphabet (R115). -/
theorem decDrain_keeps_message (d : DecRegs) : (decDrain d).1.st = d.st ∧ (decDrain d).1.alph = d.alph := by
  cases h : decHasByte d <;> simp [decDrain, h, decExtract_eq]

theorem decCharBeat_keeps_message (c : Nat) {d : DecRegs} (h : d.st ≠ .idle) :
    (decCharBeat c d).1.st ≠ .idle ∧ (decCharBeat c d).1.alph = d.alph := by
  obtain ⟨-, hbeat⟩ | ⟨-, -, hbeat⟩ | ⟨-, -, -, hbeat⟩ | ⟨v, -, -, -, hbeat⟩ := decCharBeat_cases c d <;> rw [hbeat]
  · exact ⟨h, rfl⟩
  · simp [decFail_eq]
  · simp [decFail_eq]
  · obtain ⟨hst, halph⟩ := decDrain_keeps_message (decAbsorb v d)
    rw [hst, halph]
    exact ⟨h, rfl⟩

theorem decPutBeat_keeps_message (a : Alph) (c : Nat) {d : DecRegs} (h : d.st ≠ .idle) :
    (decPutBeat a c d).1.st ≠ .idle ∧ (decPutBeat a c d).1.alph = d.alph := by
  by_cases hst : d.st = .skip
  · rw [decPutBeat_of_skip hst]
    exact ⟨h, rfl⟩
  · rw [decPutBeat_of_not_skip hst, decLatch_of_open h]
    exact decCharBeat_keeps_message c h

/-- Settles O22: the two `PUT` rules keep an open message, and the other engine's instructions do not touch it. -/
theorem messageKeepsItsAlphabetUntilItsEnd : Obligations.MessageKeepsItsAlphabetUntilItsEnd := by
  intro i s t h
  cases i with
  | encPut a d =>
    obtain rfl := Host.Outcome.next.inj h
    exact ⟨fun hbusy => .inl (encPutBeat_keeps_message a d hbusy), fun hst => .inl ⟨hst, rfl⟩⟩
  | encEnd a x =>
    obtain rfl := Host.Outcome.next.inj h
    exact ⟨fun _ => .inr ⟨a, x, rfl⟩, fun hst => .inl ⟨hst, rfl⟩⟩
  | decPut a c =>
    obtain rfl := Host.Outcome.next.inj h
    exact ⟨fun hbusy => .inl ⟨hbusy, rfl⟩, fun hst => .inl (decPutBeat_keeps_message a c hst)⟩
  | decEnd a x =>
    obtain rfl := Host.Outcome.next.inj h
    exact ⟨fun hbusy => .inl ⟨hbusy, rfl⟩, fun _ => .inr ⟨a, x, rfl⟩⟩

/-! ## The lengths of the bursts -/

@[simp] theorem length_encSymbols (a : Alph) (x n : Nat) : (encSymbols a x n).length = n / 5 := by simp [encSymbols]

/-- `ENC.PUT` emits one or two symbols (R99). -/
theorem encPutBeat_length (a : Alph) (d : Byte) {e : EncRegs} (h : e.Inv) :
    1 ≤ (encPutBeat a d e).2.length ∧ (encPutBeat a d e).2.length ≤ 2 := by
  obtain ⟨hbits, -⟩ := h.residue
  rw [encPutBeat_eq a d h, length_encSymbols]
  omega

/-- `ENC.END` emits 1 to 8 beats in the phases that occur between beats (R100). -/
theorem encEndBeat_length (a : Alph) {e : EncRegs} (h : e.Inv) (hphase : e.PhasePair) :
    1 ≤ (encEndBeat a e).2.length ∧ (encEndBeat a e).2.length ≤ 8 := by
  have hflush : (encFlush e).2.length = if 0 < e.bits.toNat then 1 else 0 := by
    rw [encFlush_beats]
    split <;> rfl
  rw [encEndBeat_eq a h]
  simp only [List.length_append, List.length_replicate, List.length_singleton, hflush]
  simp only [EncRegs.PhasePair, List.mem_cons, Prod.mk.injEq, List.not_mem_nil, or_false] at hphase
  obtain ⟨hb, ho⟩ | ⟨hb, ho⟩ | ⟨hb, ho⟩ | ⟨hb, ho⟩ | ⟨hb, ho⟩ := hphase <;> rw [hb, ho] <;> decide

/-- After the latch at most one beat leaves (R122). -/
theorem decCharBeat_length_le (c : Nat) (d : DecRegs) : (decCharBeat c d).2.length ≤ 1 := by
  obtain ⟨-, hbeat⟩ | ⟨-, -, hbeat⟩ | ⟨-, -, -, hbeat⟩ | ⟨v, -, -, -, hbeat⟩ := decCharBeat_cases c d <;> rw [hbeat]
  · exact Nat.zero_le 1
  · exact le_rfl
  · exact le_rfl
  · obtain hnone | ⟨b, hbyte⟩ := decDrain_beats (decAbsorb v d)
    · simp [hnone]
    · simp [hbyte]

/-- `DEC.PUT` emits at most one beat (R122). -/
theorem decPutBeat_length_le (a : Alph) (c : Nat) (d : DecRegs) : (decPutBeat a c d).2.length ≤ 1 := by
  by_cases hst : d.st = .skip
  · simp [decPutBeat_of_skip hst]
  · rw [decPutBeat_of_not_skip hst]
    exact decCharBeat_length_le c _

/-- `DEC.END` emits at most one beat (R122). -/
theorem decEndBeat_length_le (a : Alph) (d : DecRegs) : (decEndBeat a d).2.length ≤ 1 := by
  by_cases hst : d.st = .skip
  · simp [decEndBeat_of_skip hst, decReturn_eq]
  · simp [decEndBeat_of_not_skip hst]

/-- Settles O20: the bounds of the four rules, the streams having grown by their bursts. -/
theorem burstsAreBounded : Obligations.BurstsAreBounded := by
  intro i s t hinv hphase h
  cases i with
  | encPut a d =>
    obtain rfl := Host.Outcome.next.inj h
    obtain ⟨hpos, hle⟩ := encPutBeat_length a d hinv
    exact ⟨by simp, by simp, fun _ => by simpa using ⟨hpos, hle.trans (by decide)⟩, fun _ _ _ => by simpa using hle,
      by simp⟩
  | encEnd a x =>
    obtain rfl := Host.Outcome.next.inj h
    have hlen := encEndBeat_length a hinv hphase
    exact ⟨by simp, by simp, fun _ => by simpa using hlen, nofun, by simp⟩
  | decPut a c =>
    obtain rfl := Host.Outcome.next.inj h
    have hlen := decPutBeat_length_le a c s.dec
    exact ⟨by simp, by simp, nofun, nofun, by simpa using hlen⟩
  | decEnd a x =>
    obtain rfl := Host.Outcome.next.inj h
    have hlen := decEndBeat_length_le a s.dec
    exact ⟨by simp, by simp, nofun, nofun, by simpa using hlen⟩

end Sys2Proof.Machine
end

section
/-! More of `Encode` and `Decode` (spec/44_message_operations.md): their closed forms group by group (R104, R126), the
canonical strings (R176), concatenation (R168) and the translation between the alphabets (R169). -/

namespace Sys2Proof.Machine

/-! ## Group by group -/

/-- The groups of `z`, each by its place. -/
theorem bitGroups_eq_map_range (w n z : Nat) :
    bitGroups w n z = (List.range n).map fun j => BitVec.ofNat w (z / 2 ^ (w * (n - 1 - j))) := by
  induction n with
  | zero => rfl
  | succ n ih =>
    rw [bitGroups_succ, ih, List.range_succ_eq_map, List.map_cons, List.map_map, Nat.shiftRight_eq_div_pow]
    congr 1
    apply List.map_congr_left
    intro j _
    have hplace : n - 1 - j = n + 1 - 1 - (j + 1) := by omega
    rw [Function.comp_apply, hplace]

/-- The groups below bit `w * n` do not depend on what stands above it. -/
theorem bitGroups_mul_add (w n a z : Nat) : bitGroups w n (a * 2 ^ (w * n) + z) = bitGroups w n z := by
  rw [bitGroups_eq_map_range, bitGroups_eq_map_range]
  apply List.map_congr_left
  intro j hj
  have hj : j < n := List.mem_range.mp hj
  obtain ⟨k, hk⟩ : ∃ k, n = n - 1 - j + 1 + k := ⟨j, by omega⟩
  have hsplit : a * 2 ^ (w * n) = a * 2 ^ (w * k) * 2 ^ w * 2 ^ (w * (n - 1 - j)) := by
    rw [Nat.mul_assoc, Nat.mul_assoc, ← Nat.pow_add, ← Nat.pow_add]
    congr 2
    calc w * n = w * (n - 1 - j + 1 + k) := by rw [← hk]
      _ = w * k + (w + w * (n - 1 - j)) := by ring
  apply BitVec.eq_of_toNat_eq
  rw [hsplit, BitVec.toNat_ofNat, BitVec.toNat_ofNat, Nat.mul_comm _ (2 ^ (w * (n - 1 - j))),
    Nat.mul_add_div (Nat.two_pow_pos _), Nat.mul_add_mod_self_right]

/-- Settles O33: the message's symbol values are the groups of five bits, each by its place. -/
theorem encodeClosedForm : Obligations.EncodeClosedForm := by
  intro a bs n l z
  have hz : joinGroups 0 bs <<< (5 * l - 8 * n) = z := Nat.shiftLeft_eq _ _
  have hsymbols : messageSymbols bs = bitGroups 5 l z := congrArg (bitGroups 5 l) hz
  simp only [encodeMsg, encodeSyms_eq, List.length_map, length_messageSymbols]
  rw [hsymbols, bitGroups_eq_map_range, List.map_map]
  rfl

/-- Settles O34: the decoded bytes are the groups of eight bits, each by its place above the bits dropped. -/
theorem decodeClosedForm : Obligations.DecodeClosedForm := by
  intro a vs p m k z
  rw [decodeMsg_of_symbols, bitGroups_eq_map_range]
  congr 1
  apply List.map_congr_left
  intro i hi
  have hi : i < k := List.mem_range.mp hi
  have hplace : 5 * m % 8 + 8 * (k - 1 - i) = 5 * m - 8 * (i + 1) := by omega
  rw [← Nat.shiftRight_eq_div_pow, ← Nat.shiftRight_add, hplace, Nat.shiftRight_eq_div_pow]
  rfl

/-! ## Concatenation -/

/-- Groups after other groups: the number spelled out is shifted by the bits of the later ones. -/
theorem joinGroups_append {w : Nat} (xs ys : List (BitVec w)) :
    joinGroups 0 (xs ++ ys) = joinGroups 0 xs * 2 ^ (w * ys.length) + joinGroups 0 ys := by
  have hsplit : ∀ acc, joinGroups acc ys = acc * 2 ^ (w * ys.length) + joinGroups 0 ys := by
    induction ys with
    | nil => simp
    | cons y ys ih =>
      intro acc
      rw [joinGroups_cons, joinGroups_cons, ih, ih (0 * 2 ^ w + y.toNat), List.length_cons, Nat.mul_succ, Nat.pow_add]
      ring
  rw [← hsplit]
  exact List.foldl_append

/-- At a group boundary the symbol values are those of the two parts. -/
theorem messageSymbols_append {xs ys : List Byte} (h : xs.length % 5 = 0) :
    messageSymbols (xs ++ ys) = messageSymbols xs ++ messageSymbols ys := by
  simp only [messageSymbols, joinGroups_append, List.length_append]
  generalize hl : (8 * ys.length + 4) / 5 = l
  have hxs : (8 * xs.length + 4) / 5 = 8 * xs.length / 5 := by omega
  have hcount : (8 * (xs.length + ys.length) + 4) / 5 = 8 * xs.length / 5 + l := by omega
  have hfill : 5 * (8 * xs.length / 5 + l) - 8 * (xs.length + ys.length) = 5 * l - 8 * ys.length := by omega
  have hnofill : 5 * (8 * xs.length / 5) - 8 * xs.length = 0 := by omega
  have hbits : 8 * ys.length + (5 * l - 8 * ys.length) = 5 * l := by omega
  have hshift : (joinGroups 0 xs * 2 ^ (8 * ys.length) + joinGroups 0 ys) <<< (5 * l - 8 * ys.length) =
      joinGroups 0 xs * 2 ^ (5 * l) + joinGroups 0 ys <<< (5 * l - 8 * ys.length) := by
    rw [Nat.shiftLeft_eq, Nat.shiftLeft_eq, Nat.add_mul, Nat.mul_assoc, ← Nat.pow_add, hbits]
  have hlow : joinGroups 0 ys <<< (5 * l - 8 * ys.length) < 2 ^ (5 * l) := by
    rw [Nat.shiftLeft_eq, ← hbits, Nat.pow_add, Nat.add_sub_cancel_left]
    exact Nat.mul_lt_mul_of_pos_right (joinGroups_zero_lt ys) (Nat.two_pow_pos _)
  rw [hxs, hcount, hfill, hnofill, hshift, bitGroups_add, bitGroups_mul_add, Nat.shiftRight_eq_div_pow,
    Nat.mul_comm _ (2 ^ (5 * l)), Nat.mul_add_div (Nat.two_pow_pos _), Nat.div_eq_of_lt hlow]
  rfl

/-- Settles O40: at a group boundary `xs` has no pad characters, and `ys` has those of the whole. -/
theorem encodeOfConcatenation : Obligations.EncodeOfConcatenation := by
  intro a xs ys h
  have hnone : 8 * ((xs.length + 4) / 5) - (8 * xs.length + 4) / 5 = 0 := by omega
  have hpads : 8 * (((xs ++ ys).length + 4) / 5) - (8 * (xs ++ ys).length + 4) / 5 =
      8 * ((ys.length + 4) / 5) - (8 * ys.length + 4) / 5 := by
    rw [List.length_append]
    omega
  rw [encodeMsg_eq, encodeMsg_eq a xs, encodeMsg_eq a ys, hpads, hnone, messageSymbols_append h, List.map_append]
  simp

/-! ## Translation between the alphabets -/

/-- Settles O41: a character of an alphabet has a value, and the pad character has none. -/
theorem alphabetsDifferByTranslation : Obligations.AlphabetsDifferByTranslation := by
  intro bs
  have hpad : revLookup .std padCode.toNat = none := revLookup_padChar .std
  simp only [encodeMsg_eq, List.map_append, List.map_map, List.map_replicate, hpad]
  congr 1
  apply List.map_congr_left
  intro v _
  simp

/-! ## Canonical strings -/

/-- A string of alphabet characters followed by pad characters splits into the two in one way only. -/
theorem symbols_pads_inj {a : Alph} {vs ws : List SymVal} {p q : Nat}
    (h : vs.map (fwdLookup a) ++ List.replicate p padCode = ws.map (fwdLookup a) ++ List.replicate q padCode) :
    vs = ws ∧ p = q := by
  have hchars : ∀ us : List SymVal, ∀ c ∈ us.map (fwdLookup a), (c != padCode) = true := by
    intro us c hc
    obtain ⟨v, -, rfl⟩ := List.mem_map.mp hc
    exact bne_iff_ne.mpr fun heq => fwdLookup_toNat_ne_padChar a v (congrArg BitVec.toNat heq)
  have htake : ∀ (us : List SymVal) (r : Nat),
      (us.map (fwdLookup a) ++ List.replicate r padCode).takeWhile (· != padCode) = us.map (fwdLookup a) := by
    intro us r
    rw [List.takeWhile_append_of_pos (hchars us)]
    cases r <;> simp [List.replicate_succ]
  have hmap : vs.map (fwdLookup a) = ws.map (fwdLookup a) := by rw [← htake vs p, h, htake ws q]
  refine ⟨List.map_injective_iff.mpr (fwdLookup_injective a) hmap, ?_⟩
  rw [hmap] at h
  simpa using congrArg List.length (List.append_cancel_left h)

/-- The symbol values whose dropped bits are zero are those of the bytes they decode to. -/
theorem messageSymbols_bitGroups {vs : List SymVal} (hlen : vs.length % 8 ∈ [0, 2, 4, 5, 7])
    (hzero : joinGroups 0 vs % 2 ^ (5 * vs.length % 8) = 0) :
    messageSymbols (bitGroups 8 (5 * vs.length / 8) (joinGroups 0 vs >>> (5 * vs.length % 8))) = vs := by
  simp only [List.mem_cons, List.not_mem_nil, or_false] at hlen
  have hcount : (8 * (5 * vs.length / 8) + 4) / 5 = vs.length := by omega
  have hdropped : 5 * vs.length - 8 * (5 * vs.length / 8) = 5 * vs.length % 8 := by omega
  have hfit : joinGroups 0 vs >>> (5 * vs.length % 8) < 2 ^ (8 * (5 * vs.length / 8)) := by
    rw [Nat.shiftRight_eq_div_pow, Nat.div_lt_iff_lt_mul (Nat.two_pow_pos _), ← Nat.pow_add, Nat.div_add_mod]
    exact joinGroups_zero_lt vs
  have hback : joinGroups 0 vs >>> (5 * vs.length % 8) <<< (5 * vs.length % 8) = joinGroups 0 vs := by
    rw [Nat.shiftRight_eq_div_pow, Nat.shiftLeft_eq, Nat.div_mul_cancel (Nat.dvd_of_mod_eq_zero hzero)]
  rw [messageSymbols, length_bitGroups, hcount, hdropped, joinGroups_zero_bitGroups hfit, hback, bitGroups_joinGroups]

/-- The bits that the decoder would drop of a message's symbol values are the zero bits appended (R104). -/
theorem joinGroups_messageSymbols_mod (bs : List Byte) :
    joinGroups 0 (messageSymbols bs) % 2 ^ (5 * (messageSymbols bs).length % 8) = 0 := by
  have hdropped : 5 * (messageSymbols bs).length % 8 = 5 * (messageSymbols bs).length - 8 * bs.length := by
    rw [length_messageSymbols]
    omega
  rw [joinGroups_messageSymbols, hdropped, Nat.shiftLeft_eq, Nat.mul_mod_left]

/-- Settles O39: an encoded message has this form, and conversely the string is the encoding of what it decodes to. -/
theorem canonicalStringsCharacterised : Obligations.CanonicalStringsCharacterised := by
  intro a vs p
  constructor
  · rintro ⟨bs, hbs⟩
    rw [encodeMsg_eq] at hbs
    obtain ⟨rfl, rfl⟩ := symbols_pads_inj hbs
    refine ⟨?_, ?_, joinGroups_messageSymbols_mod bs⟩
    · rw [length_messageSymbols]
      simp only [List.mem_cons, List.not_mem_nil, or_false]
      omega
    · rw [length_messageSymbols]
      omega
  · rintro ⟨hlen, rfl, hzero⟩
    refine ⟨bitGroups 8 (5 * vs.length / 8) (joinGroups 0 vs >>> (5 * vs.length % 8)), ?_⟩
    rw [encodeMsg, encodeSyms_eq, messageSymbols_bitGroups hlen hzero, List.length_map]

end Sys2Proof.Machine
end

section
/-! Characters wider than the port (spec/70_reset_and_hazards.md R235): the stand-in fails where the text fails, and is
reported as the character it stands for. -/

namespace Sys2Proof.Machine

section
variable {cfg : Config} {x : Nat}

/-- No character but the pad character is presented as it. -/
theorem isPad_presentChar (hpad : x ≠ padChar) (c : Nat) : isPad (presentChar cfg x c) = isPad c := by
  by_cases hc : c < 2 ^ cfg.cw
  · rw [presentChar_of_lt hc]
  · have hne : c ≠ padChar := fun h => hc (h ▸ byte_lt_cw cfg (by decide))
    rw [presentChar_of_wide hc, isPad, isPad, decide_eq_false hpad, decide_eq_false hne]

/-- `Strip` removes as many characters of what is presented as of the text. -/
theorem strip_map_presentChar (hpad : x ≠ padChar) (cs : List Nat) :
    strip (cs.map (presentChar cfg x)) = (strip cs).map (presentChar cfg x) := by
  have hcomp : isPad ∘ presentChar cfg x = isPad := funext (isPad_presentChar hpad)
  rw [strip, strip, ← List.map_reverse, List.dropWhile_map, hcomp, List.map_reverse]

theorem reportOriginal_consByte (cs : List Nat) (b : Byte) (r : DecResult) :
    reportOriginal cfg x cs (consByte b r) = consByte b (reportOriginal cfg x cs r) := by
  cases r <;> rfl

/-- A character that is not presented as the stand-in does not count for the report. -/
theorem reportOriginal_cons_of_ne {c : Nat} (hc : presentChar cfg x c ≠ x) (cs : List Nat) (r : DecResult) :
    reportOriginal cfg x (c :: cs) r = reportOriginal cfg x cs r := by
  cases r with
  | ok bs => rfl
  | err y => simp [reportOriginal, originalChar, hc]

/-- A failure on the first character presented is reported as that character of the text. -/
theorem reportOriginal_head (c : Nat) (cs : List Nat) :
    reportOriginal cfg x (c :: cs) (.err (presentChar cfg x c)) = .err c := by
  by_cases hc : c < 2 ^ cfg.cw
  · rw [presentChar_of_lt hc]
    by_cases hx : c = x
    · simp [reportOriginal, originalChar, hx, presentChar_of_lt (hx ▸ hc)]
    · rw [reportOriginal, originalChar_of_ne hx]
  · simp [reportOriginal, originalChar, hc]

/-- Pad characters at the end of the text do not count for the report. -/
theorem reportOriginal_append_pads (hpad : x ≠ padChar) (cs : List Nat) (t : Nat) (r : DecResult) :
    reportOriginal cfg x (cs ++ List.replicate t padChar) r = reportOriginal cfg x cs r := by
  have hnone : (List.replicate t padChar).find? (fun y => decide (presentChar cfg x y = x)) = none := by
    have hlt : padChar < 2 ^ cfg.cw := byte_lt_cw cfg (by decide)
    simp [presentChar_of_lt hlt, hpad.symm]
  cases r with
  | ok bs => rfl
  | err c => rw [reportOriginal, reportOriginal, originalChar, originalChar, List.find?_append, hnone, Option.or_none]

/-- The loop of R170 on what is presented fails where it fails on the text, and the report names the text's
character. -/
theorem reportOriginal_decodeLoop (a : Alph) (hx : revLookup a x = none) (cs : List Nat) : ∀ acc bc,
    reportOriginal cfg x cs (decodeLoop a acc bc (cs.map (presentChar cfg x))) = decodeLoop a acc bc cs := by
  induction cs with
  | nil => exact fun _ _ => rfl
  | cons c cs ih =>
    intro acc bc
    have hlookup : revLookup a (presentChar cfg x c) = revLookup a c := by
      by_cases hc : c < 2 ^ cfg.cw
      · rw [presentChar_of_lt hc]
      · have hwide : 255 < c := by
          by_contra hle
          exact hc (byte_lt_cw cfg (by omega))
        rw [presentChar_of_wide hc, hx, revLookup_of_wide hwide]
    cases hv : revLookup a c with
    | none =>
      rw [List.map_cons, decodeLoop, decodeLoop, hlookup, hv]
      exact reportOriginal_head c cs
    | some v =>
      have hne : presentChar cfg x c ≠ x := by
        intro heq
        rw [heq, hx, hv] at hlookup
        cases hlookup
      simp only [List.map_cons, decodeLoop, hlookup, hv]
      split
      · rw [reportOriginal_consByte, reportOriginal_cons_of_ne hne, ih]
      · rw [reportOriginal_cons_of_ne hne, ih]

/-- `Decode` of what is presented, as it is reported, is `Decode` of the text (R235). -/
theorem reportOriginal_decodeMsg (a : Alph) (hpad : x ≠ padChar) (hx : revLookup a x = none) (cs : List Nat) :
    reportOriginal cfg x cs (decodeMsg a (cs.map (presentChar cfg x))) = decodeMsg a cs := by
  obtain ⟨t, ht⟩ := strip_append_pads cs
  calc reportOriginal cfg x cs (decodeMsg a (cs.map (presentChar cfg x)))
      = reportOriginal cfg x (strip cs ++ List.replicate t padChar)
          (decodeLoop a 0 0 ((strip cs).map (presentChar cfg x))) := by
        rw [ht, decodeMsg, strip_map_presentChar hpad]
    _ = decodeMsg a cs := by rw [reportOriginal_append_pads hpad, reportOriginal_decodeLoop a hx, decodeMsg]

end

/-- Settles O50: what is presented fits the port, and the report undoes the stand-in. -/
theorem wideCharactersAreInvalidCharacters : Obligations.WideCharactersAreInvalidCharacters := by
  intro cfg x a cs hlt hpad hstd hhex
  have hx : revLookup a x = none := by
    cases a with
    | std => exact hstd
    | hex => exact hhex
  exact ⟨List.forall_mem_map.mpr fun _ _ => presentChar_lt hlt, fun _ _ => presentChar_of_lt,
    reportOriginal_decodeMsg a hpad hx cs⟩

end Sys2Proof.Machine
end

section
/-! The encoder engine computes `Encode` (spec/44_message_operations.md R180): its registers follow the loop of R165, of
whose unbounded accumulator the engine keeps the bits not yet emitted. -/

namespace Sys2Proof.Machine

/-! ## The engine beside the loop of R165 -/

/-- The busy encoder beside the loop of R165 with accumulator `acc` and count `bc`, after `n` characters: it keeps the
low `bc` bits of the accumulator (R37, R39). -/
def EncRegs.beside (al : Alph) (acc bc n : Nat) : EncRegs :=
  ⟨true, al, BitVec.ofNat 12 (acc % 2 ^ bc), BitVec.ofNat 4 bc, BitVec.ofNat 3 n⟩

section
variable (al : Alph) (acc n : Nat) {bc : Nat} (h : bc < 5)
include h

theorem EncRegs.beside_bits_toNat : (EncRegs.beside al acc bc n).bits.toNat = bc :=
  Nat.mod_eq_of_lt (h.trans (by decide))

theorem EncRegs.beside_acc_toNat : (EncRegs.beside al acc bc n).acc.toNat = acc % 2 ^ bc := by
  have hacc : acc % 2 ^ bc < 2 ^ bc := Nat.mod_lt _ (Nat.two_pow_pos bc)
  exact Nat.mod_eq_of_lt (hacc.trans_le (Nat.pow_le_pow_right (by decide) (by omega)))

theorem EncRegs.beside_inv : (EncRegs.beside al acc bc n).Inv := by
  refine ⟨nofun, fun _ => ?_⟩
  rw [EncRegs.beside_bits_toNat al acc n h, EncRegs.beside_acc_toNat al acc n h]
  exact ⟨Nat.le_of_lt_succ h, Nat.mod_lt _ (Nat.two_pow_pos bc)⟩

end

/-- The latch of a message's first beat puts the engine beside the loop at its start (R91). -/
theorem encLatch_idle (al : Alph) : encLatch al .idle = EncRegs.beside al 0 0 0 := rfl

/-- The symbols of the engine's loop are the groups of five bits from the top. -/
theorem encSymbols_eq (a : Alph) (x n : Nat) :
    encSymbols a x n = (bitGroups 5 (n / 5) (x >>> (n % 5))).map fun v => .sym (fwdLookup a v) := by
  rw [encSymbols, bitGroups_eq_map_range, List.map_map]
  apply List.map_congr_left
  intro j hj
  have hj : j < n / 5 := List.mem_range.mp hj
  have hplace : n % 5 + 5 * (n / 5 - 1 - j) = n - 5 * (j + 1) := by omega
  rw [Function.comp_apply, ← Nat.shiftRight_eq_div_pow, ← Nat.shiftRight_eq_div_pow, ← Nat.shiftRight_add, hplace]

/-- Bits above the `n` bits in hand do not show in the symbols. -/
theorem encSymbols_mod (a : Alph) (x n : Nat) : encSymbols a (x % 2 ^ n) n = encSymbols a x n := by
  apply List.map_congr_left
  intro j hj
  have hj : j < n / 5 := List.mem_range.mp hj
  rw [symVal_of_truncated x (by omega)]

/-- The inner loop of R165 appends the characters that the engine's loop emits. -/
theorem drainSymbols_eq_encSymbols (a : Alph) (acc bc : Nat) :
    ((drainSymbols a bc acc bc).1.map EncBeat.sym, (drainSymbols a bc acc bc).2) = (encSymbols a acc bc, bc % 5) := by
  rw [drainSymbols_eq a acc bc bc (by omega), encSymbols_eq, List.map_map]
  rfl

/-! ## `ENC.PUT` -/

/-- The bits in hand after an absorb are the low bits of the loop's accumulator (R92, R114, R165, R170). -/
theorem residue_mul_add {w : Nat} (acc bc : Nat) (x : BitVec w) :
    acc % 2 ^ bc * 2 ^ w + x.toNat = (acc * 2 ^ w + x.toNat) % 2 ^ (bc + w) := by
  have hresidue : acc % 2 ^ bc < 2 ^ bc := Nat.mod_lt _ (Nat.two_pow_pos bc)
  have hfit : acc % 2 ^ bc * 2 ^ w + x.toNat < 2 ^ (bc + w) :=
    calc acc % 2 ^ bc * 2 ^ w + x.toNat < (acc % 2 ^ bc + 1) * 2 ^ w := by rw [Nat.succ_mul]; have := x.isLt; omega
      _ ≤ 2 ^ bc * 2 ^ w := Nat.mul_le_mul_right _ hresidue
      _ = 2 ^ (bc + w) := (Nat.pow_add _ _ _).symm
  have hsplit : acc * 2 ^ w + x.toNat = 2 ^ (bc + w) * (acc / 2 ^ bc) + (acc % 2 ^ bc * 2 ^ w + x.toNat) := by
    conv_lhs => rw [← Nat.div_add_mod acc (2 ^ bc)]
    rw [Nat.pow_add]
    ring
  rw [hsplit, Nat.mul_add_mod, Nat.mod_eq_of_lt hfit]

/-- `ENC.PUT` beside one round of the loop over the bytes (R97, R165). -/
theorem encPutBeat_beside (a al : Alph) (d : Byte) (acc n : Nat) {bc : Nat} (h : bc < 5) :
    let acc' := acc <<< 8 ||| d.toNat
    let one := drainSymbols al (bc + 8) acc' (bc + 8)
    encPutBeat a d (.beside al acc bc n) = (.beside al acc' one.2 (n + one.1.length), one.1.map .sym) := by
  intro acc' one
  have hhand : acc % 2 ^ bc * 256 + d.toNat = acc' % 2 ^ (bc + 8) :=
    (residue_mul_add acc bc d).trans (by rw [← shiftLeft_or_toNat])
  obtain ⟨hsyms, hleft⟩ := Prod.mk.inj (drainSymbols_eq_encSymbols al acc' (bc + 8))
  have hcount : one.1.length = (bc + 8) / 5 := by
    rw [← List.length_map (f := EncBeat.sym), hsyms, length_encSymbols]
  have hlow : acc' % 2 ^ (bc + 8) % 2 ^ ((bc + 8) % 5) = acc' % 2 ^ ((bc + 8) % 5) :=
    Nat.mod_mod_of_dvd _ (Nat.pow_dvd_pow 2 (Nat.mod_le _ 5))
  rw [encPutBeat_eq a d (EncRegs.beside_inv al acc n h), EncRegs.beside_bits_toNat al acc n h,
    EncRegs.beside_acc_toNat al acc n h, hhand, hlow, encSymbols_mod, hsyms, hleft, hcount]
  simp [EncRegs.beside, BitVec.ofNat_add]

/-- The engine beside the loop over the bytes (R165), whatever the `ALPH` fields of the beats: it emits the characters
the loop appends. -/
theorem execAll_encPut_beside (al : Alph) (ps : List (Alph × Byte)) : ∀ (acc bc n : Nat) (s : State), bc < 5 →
    s.enc = .beside al acc bc n →
    let r := encodeLoop al acc bc (ps.map Prod.snd)
    execAll (ps.map fun q => .encPut q.1 q.2) s =
      .next { s with enc := .beside al r.2.1 r.2.2 (n + r.1.length), encOut := s.encOut ++ r.1.map .sym } := by
  induction ps with
  | nil =>
    intro acc bc n s _ hs
    simp [execAll, encodeLoop, ← hs]
  | cons q ps ih =>
    intro acc bc n s h hs r
    have hput := encPutBeat_beside q.1 al q.2 acc n h
    have hleft : (drainSymbols al (bc + 8) (acc <<< 8 ||| q.2.toNat) (bc + 8)).2 < 5 := by
      rw [drainSymbols_eq al _ _ _ (by omega)]
      exact Nat.mod_lt _ (by decide)
    rw [List.map_cons, execAll_cons_of_next _ (exec_encPut q.1 q.2 s), hs, hput, ih _ _ _ _ hleft rfl]
    simp [r, State.encDeliver, encodeLoop, List.append_assoc, Nat.add_assoc]

/-! ## The first beat's latch -/

/-- Latching a second time changes nothing (R91). -/
@[simp] theorem encLatch_encLatch (a b : Alph) (e : EncRegs) : encLatch b (encLatch a e) = encLatch a e :=
  encLatch_of_busy (by rw [encLatch_eq])

/-- A byte may be put from the state its own beat latches (R91). -/
theorem exec_encPut_encLatch (a : Alph) (d : Byte) (s : State) :
    exec (.encPut a d) { s with enc := encLatch a s.enc } = exec (.encPut a d) s := by
  simp only [exec_encPut, encPutBeat, encLatch_encLatch]
  rfl

/-- A message may be closed from the state its `END` beat latches (R91, R98). -/
theorem exec_encEnd_encLatch (a : Alph) (x : Byte) (s : State) :
    exec (.encEnd a x) { s with enc := encLatch a s.enc } = exec (.encEnd a x) s := by
  simp only [exec_encEnd, encEndBeat, encLatch_encLatch]
  rfl

@[simp] theorem encBeatsMixed_nil (aEnd : Alph) (x : Byte) : encBeatsMixed [] aEnd x = [.encEnd aEnd x] := rfl

@[simp] theorem encBeatsMixed_cons (p : Alph × Byte) (ps : List (Alph × Byte)) (aEnd : Alph) (x : Byte) :
    encBeatsMixed (p :: ps) aEnd x = .encPut p.1 p.2 :: encBeatsMixed ps aEnd x := rfl

/-- A message may be run from the state its first beat latches (R91, R105). -/
theorem execAll_encBeatsMixed_encLatch (ps : List (Alph × Byte)) (aEnd : Alph) (x : Byte) (s : State) :
    execAll (encBeatsMixed ps aEnd x) { s with enc := encLatch (firstAlph ps aEnd) s.enc } =
      execAll (encBeatsMixed ps aEnd x) s := by
  cases ps with
  | nil => simp only [encBeatsMixed_nil, execAll, firstAlph, exec_encEnd_encLatch]
  | cons p ps => simp only [encBeatsMixed_cons, execAll, firstAlph, exec_encPut_encLatch]

/-- The bytes of a message, from an idle encoder: the engine follows the loop of R165 from its start (R105). -/
theorem execAll_encPut_of_idle (p : Alph × Byte) (ps : List (Alph × Byte)) {s : State} (h : s.enc = .idle) :
    let r := encodeLoop p.1 0 0 ((p :: ps).map Prod.snd)
    execAll ((p :: ps).map fun q => .encPut q.1 q.2) s =
      .next { s with enc := .beside p.1 r.2.1 r.2.2 r.1.length, encOut := s.encOut ++ r.1.map .sym } := by
  have hlatched := execAll_encPut_beside p.1 (p :: ps) 0 0 0 { s with enc := encLatch p.1 s.enc } (by decide)
    (by rw [h]; exact encLatch_idle p.1)
  simp only [List.map_cons, execAll, exec_encPut_encLatch, Nat.zero_add] at hlatched ⊢
  exact hlatched

/-- The low bits of the number the bytes spell out are those of the last byte. -/
theorem joinGroups_mod_getLast (bs : List Byte) (h : bs ≠ []) {r : Nat} (hr : r ≤ 8) :
    joinGroups 0 bs % 2 ^ r = (bs.getLast h).toNat % 2 ^ r := by
  have hsplit : joinGroups 0 bs = joinGroups 0 bs.dropLast * 2 ^ 8 + (bs.getLast h).toNat := by
    conv_lhs => rw [← List.dropLast_append_getLast h, joinGroups, List.foldl_append]
    rfl
  have hdvd : 2 ^ r ∣ joinGroups 0 bs.dropLast * 2 ^ 8 := (Nat.pow_dvd_pow 2 hr).mul_left _
  rw [hsplit, Nat.add_mod, Nat.mod_eq_zero_of_dvd hdvd, Nat.zero_add, Nat.mod_mod]

/-- Settles O11: the engine is beside the loop of R165, whose counts are those of its closed form. -/
theorem encoderPhaseAfterBytes : Obligations.EncoderPhaseAfterBytes := by
  intro p ps s h k
  refine ⟨_, execAll_encPut_of_idle p ps h, rfl, rfl, ?_⟩
  have hk : ((p :: ps).map Prod.snd).length = k := by simp [k]
  have hr : 8 * k % 5 < 5 := Nat.mod_lt _ (by decide)
  have hlast : (((p :: ps).map Prod.snd).getLast (by simp)).toNat =
      ((p :: ps).getLast (List.cons_ne_nil _ _)).2.toNat := by rw [List.getLast_map]
  rw [encodeLoop_eq p.1 _ 0 0 (by decide), hk]
  simp only [Nat.zero_add, List.length_map, length_bitGroups]
  refine ⟨EncRegs.beside_bits_toNat _ _ _ hr, BitVec.toNat_ofNat _ _, ?_⟩
  rw [EncRegs.beside_acc_toNat _ _ _ hr, joinGroups_mod_getLast _ (by simp) (by omega), hlast]

/-! ## `ENC.END` -/

/-- The last symbol's bits are the residue with zero bits below; the accumulator's higher bits do not show (R94,
R165). -/
theorem symVal_residue_mul (acc : Nat) {bc : Nat} (h : bc < 5) :
    (BitVec.ofNat 5 (acc % 2 ^ bc * 2 ^ (5 - bc)) : SymVal) = BitVec.ofNat 5 (acc <<< (5 - bc)) := by
  have hfull : 2 ^ bc * 2 ^ (5 - bc) = 2 ^ 5 := by rw [← Nat.pow_add, Nat.add_sub_cancel' (by omega)]
  apply BitVec.eq_of_toNat_eq
  rw [BitVec.toNat_ofNat, BitVec.toNat_ofNat, Nat.shiftLeft_eq, ← hfull, Nat.mul_mod_mul_right, Nat.mod_mod,
    Nat.mul_mod_mul_right]

/-- The flush emits the character of the leftover bits of R165, if there are any. -/
theorem encFlush_beside (al : Alph) (acc n : Nat) {bc : Nat} (h : bc < 5) :
    (encFlush (.beside al acc bc n)).2 =
      (if 0 < bc then [fwdLookup al (BitVec.ofNat 5 (acc <<< (5 - bc)))] else []).map EncBeat.sym := by
  rw [encFlush_beats, EncRegs.beside_bits_toNat al acc n h, EncRegs.beside_acc_toNat al acc n h,
    symVal_residue_mul acc h]
  split <;> rfl

/-- `Encode` before its pads is the loop's characters and that of the leftover bits (R165). -/
theorem encodeSyms_eq_append (a : Alph) (bs : List Byte) :
    let r := encodeLoop a 0 0 bs
    encodeSyms a bs =
      r.1 ++ if 0 < r.2.2 then [fwdLookup a (BitVec.ofNat 5 (r.2.1 <<< (5 - r.2.2)))] else [] := by
  intro r
  rw [encodeSyms]
  split
  · rfl
  · exact (List.append_nil _).symm

/-- `ENC.END` where the loop of R165 is over emits the rest of `Encode`, and `END`. -/
theorem encEndBeat_beside (a al : Alph) (bs : List Byte) :
    let r := encodeLoop al 0 0 bs
    (r.1.map EncBeat.sym) ++ (encEndBeat a (.beside al r.2.1 r.2.2 r.1.length)).2 =
      (encodeMsg al bs).map .sym ++ [.endMsg] := by
  intro r
  have hr : r.2.2 < 5 := by
    have hloop : r = _ := encodeLoop_eq al bs 0 0 (by decide)
    rw [hloop]
    exact Nat.mod_lt _ (by decide)
  have hocnt : (EncRegs.beside al r.2.1 r.2.2 r.1.length).ocnt.toNat = r.1.length % 8 := BitVec.toNat_ofNat _ _
  rw [encEndBeat_eq a (EncRegs.beside_inv al _ _ hr), encFlush_beside al _ _ hr, hocnt, encodeMsg,
    encodeSyms_eq_append]
  simp [List.append_assoc, r]

/-- The whole message from an idle encoder (R180). -/
theorem execAll_encBeatsMixed (ps : List (Alph × Byte)) (aEnd : Alph) (x : Byte) {s : State} (h : s.enc = .idle) :
    execAll (encBeatsMixed ps aEnd x) s =
      .next { s with
        encOut := s.encOut ++ (encodeMsg (firstAlph ps aEnd) (ps.map Prod.snd)).map .sym ++ [.endMsg] } := by
  have hputs := execAll_encPut_beside (firstAlph ps aEnd) ps 0 0 0
    { s with enc := encLatch (firstAlph ps aEnd) s.enc } (by decide)
    (by rw [h]; exact encLatch_idle _)
  have hend := encEndBeat_beside aEnd (firstAlph ps aEnd) (ps.map Prod.snd)
  rw [← execAll_encBeatsMixed_encLatch, encBeatsMixed, execAll_append _ _ _ _ hputs,
    execAll_cons_of_next _ (exec_encEnd aEnd x _), execAll]
  simp only [Nat.zero_add] at hend ⊢
  simp only [State.encDeliver, encEndBeat_idle, List.append_assoc, hend, ← h]

/-! ## The characters of the first bytes -/

/-- The loop of R165 over two parts. -/
theorem encodeLoop_append (a : Alph) (xs ys : List Byte) : ∀ acc bc,
    (encodeLoop a acc bc (xs ++ ys)).1 =
      (encodeLoop a acc bc xs).1 ++ (encodeLoop a (encodeLoop a acc bc xs).2.1 (encodeLoop a acc bc xs).2.2 ys).1 := by
  induction xs with
  | nil => simp [encodeLoop]
  | cons x xs ih => simp [encodeLoop, ih, List.append_assoc]

/-- The loop over the first `k` bytes appends the first `floor(8k/5)` characters of `Encode` (R180). -/
theorem encodeLoop_take (a : Alph) (bs : List Byte) {k : Nat} (h : k ≤ bs.length) :
    (encodeLoop a 0 0 (bs.take k)).1 = (encodeMsg a bs).take (8 * k / 5) := by
  have hlen : (encodeLoop a 0 0 (bs.take k)).1.length = 8 * k / 5 := by
    rw [encodeLoop_eq a _ 0 0 (by decide)]
    simp [Nat.min_eq_left h]
  have hprefix : (encodeLoop a 0 0 (bs.take k)).1 <+: encodeMsg a bs := by
    rw [encodeMsg, encodeSyms_eq_append, ← List.take_append_drop k bs, encodeLoop_append, List.take_append_drop,
      List.append_assoc, List.append_assoc]
    exact List.prefix_append _ _
  rw [← hlen]
  exact List.prefix_iff_eq_take.mp hprefix

/-- Settles O42: the whole message, and the loop's characters after its first bytes. -/
theorem encoderComputesEncode : Obligations.EncoderComputesEncode := by
  intro ps aEnd x s h out
  refine ⟨execAll_encBeatsMixed ps aEnd x h, fun k hk => ?_⟩
  cases k with
  | zero => exact ⟨s, rfl, by simp⟩
  | succ k =>
    cases ps with
    | nil => simp at hk
    | cons p ps =>
      have htake := encodeLoop_take p.1 ((p :: ps).map Prod.snd) (k := k + 1) (by simpa using hk)
      rw [← List.map_take, List.take_succ_cons] at htake
      exact ⟨_, execAll_encPut_of_idle p (ps.take k) h, by rw [htake]; rfl⟩

end Sys2Proof.Machine
end

section
/-! The decoder engine computes `Decode` (spec/44_message_operations.md R181): on valid characters its registers follow
the loop of R170; what comes after the first invalid one is decided by it and by whether a pad was trailing. -/

namespace Sys2Proof.Machine

/-! ## `Strip`, character by character -/

/-- A sequence that does not end in a pad character is what `Strip` leaves of it and any pads after it. -/
theorem strip_append_of_getLast?_ne {cs : List Nat} (h : cs.getLast? ≠ some padChar) (t : Nat) :
    strip (cs ++ List.replicate t padChar) = cs := by
  rw [strip_append_replicate_padChar, strip_eq_rdropWhile, List.rdropWhile_eq_self_iff]
  intro hne hlast
  exact h ((List.getLast?_eq_some_getLast hne).trans (congrArg some (isPad_iff.mp hlast)))

/-- `Strip` keeps a first character unless it and everything after it is a pad character. -/
theorem strip_cons (c : Nat) (cs : List Nat) :
    strip (c :: cs) = if c = padChar ∧ strip cs = [] then [] else c :: strip cs := by
  obtain ⟨t, ht⟩ := strip_append_pads cs
  have hlast := strip_getLast?_ne cs
  split
  case isTrue h =>
    obtain ⟨rfl, hnil⟩ := h
    rw [hnil, List.nil_append] at ht
    rw [← ht, ← List.replicate_succ]
    exact strip_append_of_getLast?_ne (cs := []) (by simp) (t + 1)
  case isFalse h =>
    have hne : (c :: strip cs).getLast? ≠ some padChar := by
      cases hs : strip cs with
      | nil => simpa [hs] using h
      | cons d ds => rwa [hs] at hlast
    conv_lhs => rw [← ht]
    exact strip_append_of_getLast?_ne hne t

theorem strip_cons_of_ne {c : Nat} (h : c ≠ padChar) (cs : List Nat) : strip (c :: cs) = c :: strip cs := by
  rw [strip_cons, if_neg fun hpad => h hpad.1]

/-! ## A message, beat by beat -/

@[simp] theorem decBeatsMixed_nil (aEnd : Alph) (x : Nat) : decBeatsMixed [] aEnd x = [.decEnd aEnd x] := rfl

@[simp] theorem decBeatsMixed_cons (p : Alph × Nat) (ps : List (Alph × Nat)) (aEnd : Alph) (x : Nat) :
    decBeatsMixed (p :: ps) aEnd x = .decPut p.1 p.2 :: decBeatsMixed ps aEnd x := rfl

/-- A character may be put from the state its own beat latches (R111). -/
theorem exec_decPut_decLatch (a : Alph) (c : Nat) {s : State} (hst : s.dec.st ≠ .skip) :
    exec (.decPut a c) { s with dec := decLatch a s.dec } = exec (.decPut a c) s := by
  simp only [exec_decPut, decPutBeat_of_not_skip hst, decPutBeat_of_not_skip (decLatch_st_ne_skip hst),
    decLatch_decLatch]
  rfl

/-- A message may be run from the state its first beat latches (R111, R129). -/
theorem execAll_decBeatsMixed_decLatch (ps : List (Alph × Nat)) (aEnd : Alph) (x : Nat) {s : State}
    (hst : s.dec.st ≠ .skip) :
    execAll (decBeatsMixed ps aEnd x) { s with dec := decLatch (firstAlph ps aEnd) s.dec } =
      execAll (decBeatsMixed ps aEnd x) s := by
  cases ps with
  | nil =>
    rw [decBeatsMixed_nil, execAll_cons_of_next _ (exec_decEnd_of_not_skip aEnd x hst)]
    exact execAll_cons_of_next [] (exec_decEnd_of_not_skip aEnd x (decLatch_st_ne_skip hst))
  | cons p ps => simp only [decBeatsMixed_cons, execAll, firstAlph, exec_decPut_decLatch _ _ hst]

/-- Settles O18: the first beat's latch leaves the decoder reading, and the characters are those of a message open in
its alphabet. -/
theorem decoderPhaseAfterCharacters : Obligations.DecoderPhaseAfterCharacters := by
  intro p ps s hidle hvalid m
  have hreading : (decLatch p.1 s.dec).Reading p.1 0 := by
    rw [hidle]
    exact reading_decLatch_idle p.1
  obtain ⟨d, bytes, hrun, hd, hlen⟩ :=
    execAll_decPut_of_reading (p :: ps) (s := { s with dec := decLatch p.1 s.dec }) hreading hvalid
  simp only [List.map_cons, execAll, exec_decPut_decLatch p.1 p.2 (show s.dec.st ≠ .skip by simp [hidle]),
    List.length_cons, Nat.zero_add] at hrun hd hlen
  exact ⟨_, bytes, hrun, hd.st, hd.alph, hd.padp, hd.bits, rfl, hlen⟩

/-! ## After a failure, and after a pad character -/

/-- After a failure the rest of the message is swallowed and closes without a beat (R120, R204). -/
theorem execAll_decBeatsMixed_of_skip (ps : List (Alph × Nat)) (aEnd : Alph) (x : Nat) {s : State} (h : s.dec.Inv)
    (hst : s.dec.st = .skip) : execAll (decBeatsMixed ps aEnd x) s = .next { s with dec := .idle } := by
  induction ps with
  | nil =>
    rw [decBeatsMixed_nil, execAll_cons_of_next _ (decEndCloses aEnd x s h), if_pos hst, List.append_nil, execAll]
  | cons p ps ih => rw [decBeatsMixed_cons, execAll_cons_of_next _ (decPutInSkipIsSwallowed p.1 p.2 s hst), ih]

/-- Another pad character leaves a pad pending (R155). -/
theorem pad_again {a : Alph} {d : DecRegs} (hst : d.st = .run) (hp : d.padp = true) :
    { d with st := .run, alph := if d.st = .idle then a else d.alph, padp := true } = d := by
  obtain ⟨st, alph, acc, bits, padp⟩ := d
  subst hst hp
  rfl

/-- With a pad pending the message closes well exactly when nothing but pad characters is left (R156, R157). -/
theorem execAll_decBeatsMixed_of_pending (ps : List (Alph × Nat)) (aEnd : Alph) (x : Nat) {s : State}
    (hst : s.dec.st = .run) (hp : s.dec.padp = true) :
    execAll (decBeatsMixed ps aEnd x) s =
      .next { s with
        dec := .idle
        decOut := s.decOut ++ [if strip (ps.map Prod.snd) = [] then .endOk else .endErr padChar] } := by
  have hskip : s.dec.st ≠ .skip := by simp [hst]
  induction ps with
  | nil => exact execAll_cons_of_next [] (exec_decEnd_of_not_skip aEnd x hskip)
  | cons p ps ih =>
    obtain ⟨a, c⟩ := p
    rw [decBeatsMixed_cons, List.map_cons, strip_cons]
    by_cases hc : c = padChar
    · have hput := decPutOfPadDefers a s hskip
      rw [pad_again hst hp, ← padChar_eq] at hput
      rw [hc, execAll_cons_of_next _ hput, ih]
      simp
    · have hput := decPutAfterPadRaises a c s hst hp hc
      rw [← padChar_eq] at hput
      rw [execAll_cons_of_next _ hput, execAll_decBeatsMixed_of_skip]
      · simp [hc]
      · exact ⟨fun _ => ⟨rfl, rfl, rfl⟩, nofun, nofun⟩
      · rfl

/-! ## The engine beside the loop of R170 -/

/-- The decoder in a message, no pad pending, beside the loop of R170 with accumulator `acc` and count `bc`: it keeps
the low `bc` bits of the accumulator (R38, R40). -/
def DecRegs.beside (al : Alph) (acc bc : Nat) : DecRegs :=
  ⟨.run, al, BitVec.ofNat 12 (acc % 2 ^ bc), BitVec.ofNat 4 bc, false⟩

theorem DecRegs.beside_reading (al : Alph) (acc : Nat) {bc : Nat} (h : bc ≤ 7) :
    (DecRegs.beside al acc bc).Reading al bc := reading_ofNat al acc h

/-- The latch of a message's first beat puts the engine beside the loop at its start (R111). -/
theorem decLatch_idle (al : Alph) : decLatch al .idle = DecRegs.beside al 0 0 := rfl

theorem DecRegs.beside_acc_toNat (al : Alph) (acc : Nat) {bc : Nat} (h : bc ≤ 7) :
    (DecRegs.beside al acc bc).acc.toNat = acc % 2 ^ bc := by
  have hacc : acc % 2 ^ bc < 2 ^ bc := Nat.mod_lt _ (Nat.two_pow_pos bc)
  exact Nat.mod_eq_of_lt (hacc.trans_le (Nat.pow_le_pow_right (by decide) (by omega)))

/-- The top byte of `k + 8` bits does not show the bits above them. -/
theorem byte_of_truncated (x k : Nat) :
    (BitVec.ofNat 8 (x % 2 ^ (k + 8) / 2 ^ k) : Byte) = BitVec.ofNat 8 (x >>> k) := by
  apply BitVec.eq_of_toNat_eq
  rw [Nat.pow_add, Nat.mod_mul_right_div_self, BitVec.toNat_ofNat, BitVec.toNat_ofNat, Nat.mod_mod,
    Nat.shiftRight_eq_div_pow]

/-- `DEC.PUT` of a valid character beside one round of the loop of R170. -/
theorem decPutBeat_beside (a : Alph) {al : Alph} {c : Nat} {v : SymVal} (hv : revLookup al c = some v) (acc : Nat)
    {bc : Nat} (h : bc ≤ 7) :
    let acc' := acc <<< 5 ||| v.toNat
    decPutBeat a c (.beside al acc bc) =
      if 8 ≤ bc + 5 then (.beside al acc' (bc + 5 - 8), [.byte (BitVec.ofNat 8 (acc' >>> (bc + 5 - 8)))])
      else (.beside al acc' (bc + 5), []) := by
  intro acc'
  have hreading := DecRegs.beside_reading al acc h
  have hhand : acc % 2 ^ bc * 32 + v.toNat = acc' % 2 ^ (bc + 5) :=
    (residue_mul_add acc bc v).trans (by rw [← shiftLeft_or_toNat])
  have hlow : acc' % 2 ^ (bc + 5) % 2 ^ ((bc + 5) % 8) = acc' % 2 ^ ((bc + 5) % 8) :=
    Nat.mod_mod_of_dvd _ (Nat.pow_dvd_pow 2 (Nat.mod_le _ 8))
  rw [decPutBeat_of_valid hreading.inv (by simp [hreading.st]) hreading.padp (v := v)
    (by simpa [hreading.st, hreading.alph] using hv), hreading.bits, DecRegs.beside_acc_toNat al acc h, hhand, hlow]
  by_cases hbyte : 8 ≤ bc + 5
  · obtain ⟨k, hk⟩ : ∃ k, bc + 5 = k + 8 := ⟨bc + 5 - 8, by omega⟩
    have hleft : (k + 8) % 8 = k := by omega
    rw [if_pos hbyte, if_pos hbyte, hk, Nat.add_sub_cancel, byte_of_truncated, hleft]
    rfl
  · rw [if_neg hbyte, if_neg hbyte, Nat.mod_eq_of_lt (show bc + 5 < 8 by omega)]
    rfl

/-! ## What the engine emits for a result -/

/-- The bytes of a result (R170). -/
def DecResult.bytes : DecResult → List Byte
  | .ok bs => bs
  | .err _ => []

/-- The beat that closes a message with this result (R87). -/
def DecResult.closing : DecResult → DecBeat
  | .ok _ => .endOk
  | .err c => .endErr c

@[simp] theorem bytes_ok (bs : List Byte) : (DecResult.ok bs).bytes = bs := rfl
@[simp] theorem bytes_consByte_ok (b : Byte) (bs : List Byte) : (consByte b (.ok bs)).bytes = b :: bs := rfl
@[simp] theorem closing_ok (bs : List Byte) : (DecResult.ok bs).closing = .endOk := rfl
@[simp] theorem closing_err (c : Nat) : (DecResult.err c).closing = .endErr c := rfl
@[simp] theorem closing_consByte (b : Byte) (r : DecResult) : (consByte b r).closing = r.closing := by cases r <;> rfl

/-- The valid characters before the first offending one (R181). -/
def validPrefix (al : Alph) (cs : List Nat) : List Nat := cs.takeWhile fun c => (revLookup al c).isSome

theorem validPrefix_valid (al : Alph) (cs : List Nat) : ∀ c ∈ validPrefix al cs, (revLookup al c).isSome = true :=
  fun _ hc => List.mem_takeWhile_imp (p := fun c => (revLookup al c).isSome) hc

theorem validPrefix_cons_of_valid {al : Alph} {c : Nat} {v : SymVal} (hv : revLookup al c = some v) (cs : List Nat) :
    validPrefix al (c :: cs) = c :: validPrefix al cs := by simp [validPrefix, hv]

theorem validPrefix_cons_of_invalid {al : Alph} {c : Nat} (hv : revLookup al c = none) (cs : List Nat) :
    validPrefix al (c :: cs) = [] := by simp [validPrefix, hv]

theorem ne_padChar_of_valid {al : Alph} {c : Nat} {v : SymVal} (hv : revLookup al c = some v) : c ≠ padChar := by
  rintro rfl
  simp at hv

/-- Valid characters decode (R174). -/
theorem decodeLoop_validPrefix (al : Alph) (acc : Nat) {bc : Nat} (h : bc < 8) (cs : List Nat) :
    ∃ out, decodeLoop al acc bc (validPrefix al cs) = .ok out := by
  obtain ⟨vs, hvs⟩ := exists_symbols_of_valid (validPrefix_valid al cs)
  rw [← hvs]
  exact ⟨_, decodeLoop_eq al vs acc bc h⟩

/-- On an invalid character the engine emits no more bytes and closes with the result: an invalid character fails at
once, and a pad character when another one follows it (R112, R156, R157). -/
theorem execAll_decBeatsMixed_of_invalid {al : Alph} {r : Nat} {s : State} (h : s.dec.Reading al r) (a : Alph) {c : Nat}
    (hv : revLookup al c = none) (ps : List (Alph × Nat)) (aEnd : Alph) (x acc bc : Nat) :
    execAll (decBeatsMixed ((a, c) :: ps) aEnd x) s =
      .next { s with
        dec := .idle
        decOut := s.decOut ++ [(decodeLoop al acc bc (strip (c :: ps.map Prod.snd))).closing] } := by
  have hskip : s.dec.st ≠ .skip := by simp [h.st]
  rw [decBeatsMixed_cons, strip_cons]
  by_cases hc : c = padChar
  · have hput := decPutOfPadDefers a s hskip
    rw [← padChar_eq] at hput
    rw [hc, execAll_cons_of_next _ hput, execAll_decBeatsMixed_of_pending _ _ _ rfl rfl]
    by_cases hnil : strip (ps.map Prod.snd) = [] <;> simp [hnil, decodeLoop]
  · have hput := decPutOfInvalidCharacterRaises a c s hskip h.padp hc (by simpa [h.st, h.alph] using hv)
    rw [execAll_cons_of_next _ hput, execAll_decBeatsMixed_of_skip]
    · simp [hc, decodeLoop, hv]
    · exact ⟨fun _ => ⟨rfl, rfl, rfl⟩, nofun, nofun⟩
    · rfl

/-- The engine beside the loop of R170: it emits the bytes of the valid characters before the first offending one, and
closes with the result (R181). -/
theorem execAll_decBeatsMixed_beside (al : Alph) (ps : List (Alph × Nat)) (aEnd : Alph) (x : Nat) :
    ∀ (acc bc : Nat) (s : State), bc ≤ 7 → s.dec = .beside al acc bc →
    execAll (decBeatsMixed ps aEnd x) s =
      .next { s with
        dec := .idle
        decOut := s.decOut ++ (decodeLoop al acc bc (validPrefix al (ps.map Prod.snd))).bytes.map .byte ++
          [(decodeLoop al acc bc (strip (ps.map Prod.snd))).closing] } := by
  induction ps with
  | nil =>
    intro acc bc s h hs
    rw [decBeatsMixed_nil, execAll_cons_of_next _ (exec_decEnd_of_not_skip aEnd x (by simp [hs, DecRegs.beside]))]
    simp [execAll, decodeLoop, validPrefix, strip]
  | cons p ps ih =>
    intro acc bc s h hs
    obtain ⟨a, c⟩ := p
    rw [List.map_cons]
    cases hv : revLookup al c with
    | none =>
      rw [execAll_decBeatsMixed_of_invalid (hs ▸ DecRegs.beside_reading al acc h) a hv ps aEnd x acc bc,
        validPrefix_cons_of_invalid hv]
      simp [decodeLoop]
    | some v =>
      have hput := exec_decPut a c s
      rw [hs, decPutBeat_beside a hv acc h] at hput
      rw [decBeatsMixed_cons, execAll_cons_of_next _ hput, validPrefix_cons_of_valid hv,
        strip_cons_of_ne (ne_padChar_of_valid hv)]
      simp only [decodeLoop, hv]
      by_cases hbyte : 8 ≤ bc + 5
      · obtain ⟨out, hout⟩ := decodeLoop_validPrefix al (acc <<< 5 ||| v.toNat) (bc := bc + 5 - 8) (by omega)
          (ps.map Prod.snd)
        rw [if_pos hbyte, if_pos hbyte, if_pos hbyte, ih _ _ _ (by omega) rfl, hout]
        simp [State.decDeliver]
      · rw [if_neg hbyte, if_neg hbyte, if_neg hbyte, ih _ _ _ (by omega) rfl]
        simp [State.decDeliver]

/-- The whole message from an idle decoder (R181). -/
theorem execAll_decBeatsMixed (ps : List (Alph × Nat)) (aEnd : Alph) (x : Nat) {s : State} (h : s.dec = .idle) :
    let a := firstAlph ps aEnd
    let cs := ps.map Prod.snd
    execAll (decBeatsMixed ps aEnd x) s =
      .next { s with
        decOut := s.decOut ++ (decodeMsg a (validPrefix a cs)).bytes.map .byte ++ [(decodeMsg a cs).closing] } := by
  intro a cs
  have hrun := execAll_decBeatsMixed_beside a ps aEnd x 0 0 { s with dec := decLatch a s.dec } (by decide)
    (by rw [h]; exact decLatch_idle a)
  have hprefix : strip (validPrefix a cs) = validPrefix a cs := strip_eq_self fun c hc => by
    obtain ⟨v, hv⟩ := Option.isSome_iff_exists.mp (validPrefix_valid a cs c hc)
    exact ne_padChar_of_valid hv
  rw [← execAll_decBeatsMixed_decLatch ps aEnd x (by simp [h]), hrun, decodeMsg, decodeMsg, hprefix, ← h]

/-- Where the message decodes, its first valid characters are all but the pad characters at its end. -/
theorem validPrefix_eq_strip {a : Alph} {cs : List Nat} (h : ∀ c ∈ strip cs, (revLookup a c).isSome = true) :
    validPrefix a cs = strip cs := by
  obtain ⟨t, ht⟩ := strip_append_pads cs
  have hpads : validPrefix a (List.replicate t padChar) = [] := by
    cases t with
    | zero => rfl
    | succ t => exact validPrefix_cons_of_invalid (revLookup_padChar a) _
  calc validPrefix a cs = strip cs ++ validPrefix a (List.replicate t padChar) := by
        conv_lhs => rw [← ht]
        exact List.takeWhile_append_of_pos h
    _ = strip cs := by rw [hpads, List.append_nil]

/-- `Decode` of the first valid characters, where the message decodes, is `Decode` of the message. -/
theorem decodeMsg_validPrefix {a : Alph} {cs : List Nat} {out : List Byte} (h : decodeMsg a cs = .ok out) :
    decodeMsg a (validPrefix a cs) = .ok out := by
  have hvalid := decodeMsg_ok_iff.mp ⟨out, h⟩
  have hidem : strip (strip cs) = strip cs := by
    simpa using strip_append_of_getLast?_ne (strip_getLast?_ne cs) 0
  rw [validPrefix_eq_strip hvalid, decodeMsg, hidem]
  exact h

/-- The first valid characters decode (R174). -/
theorem decodeMsg_validPrefix_ok (a : Alph) (cs : List Nat) : ∃ pre, decodeMsg a (validPrefix a cs) = .ok pre :=
  decodeMsg_ok_iff.mpr fun c hc => by
    obtain ⟨t, ht⟩ := strip_append_pads (validPrefix a cs)
    exact validPrefix_valid a cs c (ht ▸ List.mem_append_left _ hc)

/-- Settles O43: the whole message, its result one or the other. -/
theorem decoderComputesDecode : Obligations.DecoderComputesDecode := by
  intro ps aEnd x s h a cs
  have hrun := execAll_decBeatsMixed ps aEnd x h
  refine ⟨fun out hok => ?_, fun c herr => ?_⟩
  · rw [hrun, hok, decodeMsg_validPrefix hok]
    rfl
  · obtain ⟨pre, hpre⟩ := decodeMsg_validPrefix_ok a cs
    refine ⟨pre, hpre, ?_⟩
    rw [hrun, herr, hpre]
    rfl

/-! ## Through both engines -/

theorem encBeats_eq_mixed (a : Alph) (bs : List Byte) : encBeats a bs = encBeatsMixed (bs.map (a, ·)) a 0 := by
  simp [encBeats, encBeatsMixed, Function.comp_def]

theorem decBeats_eq_mixed (a : Alph) (cs : List Nat) : decBeats a cs = decBeatsMixed (cs.map (a, ·)) a 0 := by
  simp [decBeats, decBeatsMixed, Function.comp_def]

/-- A message whose beats all carry `a` is in the alphabet `a`. -/
@[simp] theorem firstAlph_map {α : Type} (a : Alph) (xs : List α) : firstAlph (xs.map (a, ·)) a = a := by
  cases xs <;> rfl

/-- `EncBeats` from an idle encoder (R179, R180). -/
theorem execAll_encBeats (a : Alph) (bs : List Byte) {s : State} (h : s.enc = .idle) :
    execAll (encBeats a bs) s =
      .next { s with encOut := s.encOut ++ (encodeMsg a bs).map .sym ++ [.endMsg] } := by
  rw [encBeats_eq_mixed, execAll_encBeatsMixed _ _ _ h]
  simp [Function.comp_def]

/-- `DecBeats` from an idle decoder (R179, R181). -/
theorem execAll_decBeats (a : Alph) (cs : List Nat) {s : State} (h : s.dec = .idle) :
    execAll (decBeats a cs) s =
      .next { s with
        decOut := s.decOut ++ (decodeMsg a (validPrefix a cs)).bytes.map .byte ++ [(decodeMsg a cs).closing] } := by
  rw [decBeats_eq_mixed, execAll_decBeatsMixed _ _ _ h]
  simp [Function.comp_def]

/-- Settles O45: the characters are those of `Encode`, which `Decode` gives back. -/
theorem encoderThenDecoderReturnsTheBytes : Obligations.EncoderThenDecoderReturnsTheBytes := by
  intro a bs s hidle
  obtain ⟨henc, hdec⟩ := hidle
  have hround := decodeOfEncodedMessageIsTheMessage a bs
  refine ⟨_, _, encodeMsg a bs, execAll_encBeats a bs henc, rfl, execAll_decBeats a _ hdec, ?_, rfl, henc, hdec⟩
  rw [decodeMsg_validPrefix hround, hround]
  rfl

end Sys2Proof.Machine
end

section
/-! What a step can do (spec/20_memory.md R56 to R58, spec/70_reset_and_hazards.md R220 to R223, R237), said once for
both engines: the step is a move of the host, or one engine's turn, at which it waits, runs one beat, or is refused. -/

namespace Sys2Proof.Machine

/-! ## Taking a move and a word off -/

/-- The state with its next move taken off the list. -/
def State.dropMove (s : State) : State := { s with moves := s.moves.tail }

/-- The state with the oldest word of a port taken off it (R56). -/
def State.dropWord (s : State) : Port → State
  | .enc => { s with encIn := s.encIn.tail }
  | .dec => { s with decIn := s.decIn.tail }

section
variable (s : State) (p q : Port)
@[simp] theorem dropMove_cfg : s.dropMove.cfg = s.cfg := rfl
@[simp] theorem dropMove_moves : s.dropMove.moves = s.moves.tail := rfl
@[simp] theorem dropMove_waiting : s.dropMove.waiting p = s.waiting p := by cases p <;> rfl
@[simp] theorem dropMove_ready : s.dropMove.ready p = s.ready p := by cases p <;> rfl
@[simp] theorem dropWord_cfg : (s.dropWord p).cfg = s.cfg := by cases p <;> rfl
@[simp] theorem dropWord_moves : (s.dropWord p).moves = s.moves := by cases p <;> rfl
@[simp] theorem dropWord_ready : (s.dropWord p).ready q = s.ready q := by cases p <;> cases q <;> rfl
@[simp] theorem dropWord_waiting_same : (s.dropWord p).waiting p = (s.waiting p).tail := by
  cases p <;> simp [State.dropWord]
end

theorem dropWord_waiting_other {s : State} {p q : Port} (h : p ≠ q) : (s.dropWord p).waiting q = s.waiting q := by
  cases p <;> cases q <;> simp_all [State.dropWord]

/-- Replacing the list of moves leaves the ports. -/
@[simp] theorem waiting_replace_moves (s : State) (ms : List Move) (p : Port) :
    State.waiting { s with moves := ms } p = s.waiting p := by cases p <;> rfl

@[simp] theorem ready_replace_moves (s : State) (ms : List Move) (p : Port) :
    State.ready { s with moves := ms } p = s.ready p := by cases p <;> rfl

/-- With no move listed there is none to take off. -/
theorem dropMove_of_no_moves {s : State} (h : s.moves = []) : s.dropMove = s := by
  rw [State.dropMove, h, List.tail_nil, ← h]

theorem dropMove_of_cons {s : State} {m : Move} {ms : List Move} (h : s.moves = m :: ms) :
    s.dropMove = { s with moves := ms } := by
  rw [State.dropMove, h, List.tail_cons]

/-! ## The beat an engine can take -/

/-- A word waiting on a port stands on it. -/
theorem port_of_mem_waiting {s : State} {p : Port} {w : InWord} (h : w ∈ s.waiting p) : w.port = p := by
  cases p <;> obtain ⟨v, -, rfl⟩ := List.mem_map.mp h <;> rfl

/-- An engine takes the oldest word of its port when its consumer accepts (R56, R237). -/
theorem fetch_of_waiting {s : State} {p : Port} {w : InWord} {ws : List InWord} (hr : s.ready p = true)
    (hw : s.waiting p = w :: ws) : s.fetch p = some (w, s.dropWord p) := by
  cases p with
  | enc =>
    obtain ⟨v, vs, hv, rfl, -⟩ := List.map_eq_cons_iff.mp hw
    simp_all [State.fetch, State.dropWord]
  | dec =>
    obtain ⟨v, vs, hv, rfl, -⟩ := List.map_eq_cons_iff.mp hw
    simp_all [State.fetch, State.dropWord]

/-- An engine takes no beat exactly when its consumer does not accept or no word waits (R210, R237). -/
theorem fetch_eq_none_iff {s : State} {p : Port} : s.fetch p = none ↔ s.ready p = false ∨ s.waiting p = [] := by
  cases p with
  | enc => simpa using fetch_enc_eq_none
  | dec => simpa using fetch_dec_eq_none

/-- What an engine takes is the oldest word of its port, and that word off the port is the whole change (R56). -/
theorem of_fetch_eq_some {s t : State} {p : Port} {w : InWord} (h : s.fetch p = some (w, t)) :
    s.ready p = true ∧ s.waiting p = w :: (s.waiting p).tail ∧ t = s.dropWord p := by
  have hsome : ¬(s.ready p = false ∨ s.waiting p = []) := fun hnone => by simp [fetch_eq_none_iff.mpr hnone] at h
  simp only [not_or, Bool.not_eq_false] at hsome
  obtain ⟨hr, hne⟩ := hsome
  obtain ⟨v, vs, hv⟩ := List.exists_cons_of_ne_nil hne
  obtain ⟨rfl, rfl⟩ := Prod.mk.inj (Option.some.inj ((fetch_of_waiting hr hv).symm.trans h))
  exact ⟨hr, by rw [hv, List.tail_cons], rfl⟩

/-! ## An engine's turn -/

/-- It is this engine's turn: its turn is listed, or no move is listed and it is the one that goes on, ENC before DEC
(log entry 2). -/
def State.Turn (s : State) (p : Port) : Prop :=
  s.moves.head? = some (.accept p) ∨ s.moves = [] ∧ s.fetchAny = s.fetch p ∧ (p = .dec → s.fetch .enc = none)

/-- With no move listed it is the turn of one of the engines. -/
theorem exists_turn_of_no_moves {s : State} (h : s.moves = []) : ∃ p, s.Turn p ∧ s.fetchAny = s.fetch p := by
  obtain ⟨r, he, hany⟩ | ⟨he, r, hd, hany⟩ | ⟨he, hd, hany⟩ := fetchAny_cases s
  · exact ⟨.enc, .inr ⟨h, hany.trans he.symm, nofun⟩, hany.trans he.symm⟩
  · exact ⟨.dec, .inr ⟨h, hany.trans hd.symm, fun _ => he⟩, hany.trans hd.symm⟩
  · exact ⟨.dec, .inr ⟨h, hany.trans hd.symm, fun _ => he⟩, hany.trans hd.symm⟩

/-- At its turn an engine waits, runs the beat it takes, or is refused because the number taken is no word (R56,
R58). -/
theorem runTaken_fetch_cases (s : State) (p : Port) :
    (s.fetch p = none ∧ runTaken s (s.fetch p) = .next s) ∨
    (∃ w i, s.fetch p = some (w, s.dropWord p) ∧ decode s.cfg w = .ok i ∧
      runTaken s (s.fetch p) = exec i (s.dropWord p)) ∨
    (∃ w, s.fetch p = some (w, s.dropWord p) ∧ w.fits s.cfg = false ∧
      runTaken s (s.fetch p) = .refused .wordWiderThanPort) := by
  cases hf : s.fetch p with
  | none => exact .inl ⟨rfl, rfl⟩
  | some r =>
    obtain ⟨w, t⟩ := r
    obtain ⟨-, -, rfl⟩ := of_fetch_eq_some hf
    cases hfit : w.fits s.cfg with
    | true =>
      obtain ⟨i, hi, -⟩ := encode_decode hfit
      exact .inr (.inl ⟨w, i, rfl, hi, runWord_of_ok (by rwa [dropWord_cfg])⟩)
    | false =>
      have herr := decode_of_not_fits hfit
      exact .inr (.inr ⟨w, rfl, hfit, runWord_of_error (by rwa [dropWord_cfg])⟩)

/-! ## The step -/

/-- Everything a step can do: a move of the host, or an engine's turn. -/
theorem step_cases (s : State) :
    (∃ w, s.moves.head? = some (.present w) ∧ step s = .next (s.dropMove.present w)) ∨
    (∃ p b, s.moves.head? = some (.ready p b) ∧ step s = .next (s.dropMove.setReady b p)) ∨
    (s.moves.head? = some .reset ∧ step s = .next s.dropMove.resetEvent) ∨
    (∃ p, s.Turn p ∧ step s = runTaken s.dropMove (s.dropMove.fetch p)) := by
  cases hms : s.moves with
  | nil =>
    obtain ⟨p, hturn, hp⟩ := exists_turn_of_no_moves hms
    refine .inr (.inr (.inr ⟨p, hturn, ?_⟩))
    rw [dropMove_of_no_moves hms, ← hp, step, hms]
  | cons m ms =>
    have hdrop := dropMove_of_cons hms
    cases m with
    | present w => exact .inl ⟨w, rfl, by rw [hdrop, step_of_present hms]⟩
    | ready p b => exact .inr (.inl ⟨p, b, rfl, by rw [hdrop, step_of_ready hms]⟩)
    | reset => exact .inr (.inr (.inl ⟨rfl, by rw [hdrop, step_of_reset hms]⟩))
    | accept p =>
      refine .inr (.inr (.inr ⟨p, .inl (by rw [hms]; rfl), ?_⟩))
      rw [hdrop, step, hms]

/-- Everything a step that answers a next state can have done. -/
theorem step_next_cases {s t : State} (h : step s = .next t) :
    (∃ w, s.moves.head? = some (.present w) ∧ t = s.dropMove.present w) ∨
    (∃ p b, s.moves.head? = some (.ready p b) ∧ t = s.dropMove.setReady b p) ∨
    (s.moves.head? = some .reset ∧ t = s.dropMove.resetEvent) ∨
    (∃ p, s.Turn p ∧ s.dropMove.fetch p = none ∧ t = s.dropMove) ∨
    (∃ p w i, s.Turn p ∧ s.dropMove.fetch p = some (w, s.dropMove.dropWord p) ∧ decode s.cfg w = .ok i ∧
      exec i (s.dropMove.dropWord p) = .next t) := by
  obtain ⟨w, hm, hs⟩ | ⟨p, b, hm, hs⟩ | ⟨hm, hs⟩ | ⟨p, hturn, hs⟩ := step_cases s <;> rw [h] at hs
  · exact .inl ⟨w, hm, Host.Outcome.next.inj hs⟩
  · exact .inr (.inl ⟨p, b, hm, Host.Outcome.next.inj hs⟩)
  · exact .inr (.inr (.inl ⟨hm, Host.Outcome.next.inj hs⟩))
  · obtain ⟨hf, hrun⟩ | ⟨w, i, hf, hi, hrun⟩ | ⟨w, -, -, hrun⟩ := runTaken_fetch_cases s.dropMove p <;> rw [hrun] at hs
    · exact .inr (.inr (.inr (.inl ⟨p, hturn, hf, Host.Outcome.next.inj hs⟩)))
    · exact .inr (.inr (.inr (.inr ⟨p, w, i, hturn, hf, hi, hs.symm⟩)))
    · cases hs

/-! ## Single steps -/

/-- Settles O24: the reset event's registers are those right after reset, and its other fields are the model's. -/
theorem resetEventEmptiesTheMachine : Obligations.ResetEventEmptiesTheMachine := fun _ _ h =>
  ⟨_, step_of_reset h, rfl, rfl, rfl, rfl, rfl, rfl, rfl, rfl, rfl, rfl, rfl, rfl⟩

/-- ENC takes the oldest word of `ENC_IN` (R56). -/
theorem fetch_enc_of_cons {s : State} {w : BitVec 10} {ws : List (BitVec 10)} (hr : s.encReady = true)
    (hw : s.encIn = w :: ws) : s.fetch .enc = some (.enc w, { s with encIn := ws }) := by
  simp [State.fetch, hr, hw]

/-- DEC takes the oldest word of `DEC_IN` (R56). -/
theorem fetch_dec_of_cons {s : State} {w : Nat} {ws : List Nat} (hr : s.decReady = true) (hw : s.decIn = w :: ws) :
    s.fetch .dec = some (.dec w, { s with decIn := ws }) := by
  simp [State.fetch, hr, hw]

/-- With no move listed ENC goes first (log entry 2). -/
theorem fetchAny_of_enc {s : State} {r : InWord × State} (h : s.fetch .enc = some r) : s.fetchAny = some r := by
  simp [State.fetchAny, h]

/-- With no move listed DEC goes on where ENC can take no beat (log entry 2). -/
theorem fetchAny_of_enc_none {s : State} (h : s.fetch .enc = none) : s.fetchAny = s.fetch .dec := by
  simp [State.fetchAny, h]

/-- Settles O25: the word taken is decoded and run; the host's moves are the model's definitions. -/
theorem stepRunsTheAcceptedBeat : Obligations.StepRunsTheAcceptedBeat := by
  intro i ms s
  refine ⟨fun w ws hm hr hw hi => ?_, fun w ws hm hr hw hi => ?_, fun w ws hm hr hw hi => ?_,
    fun w ws hm hno hr hw hi => ?_, fun w => step_of_present, fun w => step_of_present, fun b => step_of_ready,
    fun b => step_of_ready⟩
  · exact (step_of_accept_some hm (fetch_enc_of_cons hr hw)).trans (runWord_of_ok hi)
  · exact (step_of_accept_some hm (fetch_dec_of_cons hr hw)).trans (runWord_of_ok hi)
  · exact (step_of_no_moves_some hm (fetchAny_of_enc (fetch_enc_of_cons hr hw))).trans (runWord_of_ok hi)
  · have hany := (fetchAny_of_enc_none (fetch_enc_eq_none.mpr hno)).trans (fetch_dec_of_cons hr hw)
    exact (step_of_no_moves_some hm hany).trans (runWord_of_ok hi)

/-- Settles O26: where no beat can be taken the turn passes. -/
theorem stalledOrWaitingEngineLosesNothing : Obligations.StalledOrWaitingEngineLosesNothing := fun _ _ =>
  ⟨fun hm hno => step_of_accept_none hm (fetch_enc_eq_none.mpr hno),
    fun hm hno => step_of_accept_none hm (fetch_dec_eq_none.mpr hno), fun hm hnoEnc hnoDec =>
    step_of_no_moves_none hm ((fetchAny_of_enc_none (fetch_enc_eq_none.mpr hnoEnc)).trans
      (fetch_dec_eq_none.mpr hnoDec))⟩

/-- No instruction faults or is refused (R195, R212). -/
theorem exec_total (i : Instr) (s : State) : ∃ t, exec i s = .next t := by
  obtain ⟨-, r, h⟩ | ⟨-, r, h⟩ := exec_cases i s <;> exact ⟨_, h⟩

/-- Settles O30: a step is refused only at a turn, on a number that is no word, and `ENC_IN` holds none. -/
theorem onlyOverwideWordsAreRefused : Obligations.OnlyOverwideWordsAreRefused := by
  refine fun s => ⟨nofun, fun r hr => ?_⟩
  obtain ⟨w, -, hs⟩ | ⟨p, b, -, hs⟩ | ⟨-, hs⟩ | ⟨p, hturn, hs⟩ := step_cases s <;> rw [hr] at hs
  · cases hs
  · cases hs
  · cases hs
  · obtain ⟨-, hrun⟩ | ⟨w, i, -, -, hrun⟩ | ⟨w, hf, hfit, hrun⟩ := runTaken_fetch_cases s.dropMove p <;>
      rw [hrun] at hs
    · cases hs
    · obtain ⟨t, ht⟩ := exec_total i (s.dropMove.dropWord p)
      rw [ht] at hs
      cases hs
    · obtain ⟨hready, hwaiting, -⟩ := of_fetch_eq_some hf
      cases p with
      | enc =>
        obtain ⟨v, vs, -, rfl, -⟩ := List.map_eq_cons_iff.mp hwaiting
        cases hfit
      | dec =>
        obtain ⟨v, vs, hv, rfl, -⟩ := List.map_eq_cons_iff.mp hwaiting
        refine ⟨Host.Outcome.refused.inj hs, hready, ⟨v, vs, hv, Nat.le_of_not_lt (of_decide_eq_false hfit)⟩, ?_⟩
        obtain hlisted | ⟨hnone, -, henc⟩ := hturn
        · obtain ⟨ms, hms⟩ := List.head?_eq_some_iff.mp hlisted
          exact .inl ⟨ms, hms⟩
        · exact .inr ⟨hnone, fetch_enc_eq_none.mp (henc rfl)⟩

end Sys2Proof.Machine
end

section
/-! The invariant (spec/10_state.md R37 to R39, spec/30_encoding.md R70): it holds at reset, every instruction and every
step keeps it, and where the words fit the ports every step completes. -/

namespace Sys2Proof.Machine

/-! ## The engines -/

/-- `ENC.PUT` keeps the encoder's invariant (R37): what it leaves is a residue of `n mod 5` bits. -/
theorem encPutBeat_inv (a : Alph) (d : Byte) {e : EncRegs} (h : e.Inv) : (encPutBeat a d e).1.Inv := by
  have hleft : (e.bits.toNat + 8) % 5 < 5 := Nat.mod_lt _ (by decide)
  obtain ⟨-, hbusy⟩ := EncRegs.beside_inv (if e.busy then e.alph else a) (e.acc.toNat * 256 + d.toNat) 0 hleft
  rw [encPutBeat_eq a d h]
  exact ⟨nofun, fun _ => hbusy rfl⟩

/-- `ENC.PUT` goes from each of the five phase pairs to the next (R39). -/
theorem encPutBeat_phasePair (a : Alph) (d : Byte) {e : EncRegs} (h : e.Inv) (hphase : e.PhasePair) :
    (encPutBeat a d e).1.PhasePair := by
  rw [encPutBeat_eq a d h]
  simp only [EncRegs.PhasePair, BitVec.toNat_ofNat, BitVec.toNat_add, List.mem_cons, Prod.mk.injEq, List.not_mem_nil,
    or_false] at hphase ⊢
  omega

/-- After the latch `DEC.PUT` keeps the decoder's invariant (R38). -/
theorem decCharBeat_inv (c : Nat) {d : DecRegs} (h : d.Inv) (hst : d.st = .run) : (decCharBeat c d).1.Inv := by
  obtain ⟨hbits, hacc⟩ := h.residue
  obtain ⟨-, hbeat⟩ | ⟨-, -, hbeat⟩ | ⟨-, -, -, hbeat⟩ | ⟨v, -, -, -, hbeat⟩ := decCharBeat_cases c d <;> rw [hbeat]
  · exact ⟨fun hno => absurd hst hno, fun hidle => by simp [decPadDefer, hst] at hidle, fun _ => ⟨hbits, hacc⟩⟩
  · exact ⟨fun _ => ⟨rfl, rfl, rfl⟩, nofun, nofun⟩
  · exact ⟨fun _ => ⟨rfl, rfl, rfl⟩, nofun, nofun⟩
  · have hleft : (d.bits.toNat + 5) % 8 ≤ 7 := by omega
    have hreading := DecRegs.beside_reading d.alph (d.acc.toNat * 32 + v.toNat) hleft
    obtain ⟨-, -, hrun⟩ := hreading.inv
    rw [decDrain_decAbsorb_eq hbits hacc]
    exact ⟨fun hno => absurd hst hno, fun hidle => by simp [hst] at hidle, fun _ => hrun rfl⟩

/-- `DEC.PUT` keeps the decoder's invariant (R38). -/
theorem decPutBeat_inv (a : Alph) (c : Nat) {d : DecRegs} (h : d.Inv) : (decPutBeat a c d).1.Inv := by
  by_cases hst : d.st = .skip
  · rwa [decPutBeat_of_skip hst]
  · rw [decPutBeat_of_not_skip hst, decLatch_of_not_skip hst]
    exact decCharBeat_inv c ⟨fun hno => absurd rfl hno, nofun, fun _ => h.residue⟩ rfl

theorem encIdle_inv : EncRegs.idle.Inv ∧ EncRegs.idle.PhasePair := by decide

theorem decIdle_inv : DecRegs.idle.Inv := by decide

/-! ## The instructions -/

/-- The part of the invariant that speaks of the engines (R37 to R39). -/
abbrev State.EnginesInv (s : State) : Prop := s.enc.Inv ∧ s.enc.PhasePair ∧ s.dec.Inv

/-- Every instruction keeps the engines' invariant. -/
theorem exec_keeps_enginesInv {i : Instr} {s t : State} (h : exec i s = .next t) (hs : s.EnginesInv) :
    t.EnginesInv := by
  obtain ⟨henc, hphase, hdec⟩ := hs
  cases i with
  | encPut a d =>
    obtain rfl := Host.Outcome.next.inj h
    exact ⟨encPutBeat_inv a d henc, encPutBeat_phasePair a d henc hphase, hdec⟩
  | encEnd a x =>
    obtain rfl := Host.Outcome.next.inj h
    exact ⟨encIdle_inv.1, encIdle_inv.2, hdec⟩
  | decPut a c =>
    obtain rfl := Host.Outcome.next.inj h
    exact ⟨henc, hphase, decPutBeat_inv a c hdec⟩
  | decEnd a x =>
    obtain rfl := Host.Outcome.next.inj h
    refine ⟨henc, hphase, ?_⟩
    rw [decDeliver_dec, decEndBeat_eq a hdec]
    exact decIdle_inv

/-! ## The ports -/

/-- A list of moves fits when every word it presents does (R70). -/
theorem movesFit_iff {cfg : Config} {ms : List Move} :
    movesFit cfg ms = true ↔ ∀ w, .present w ∈ ms → w.fits cfg = true := by
  induction ms with
  | nil => simp [movesFit]
  | cons m ms ih => cases m <;> simp [movesFit, ih, or_imp, forall_and]

theorem movesFit_tail {cfg : Config} {ms : List Move} (h : movesFit cfg ms = true) : movesFit cfg ms.tail = true :=
  movesFit_iff.mpr fun w hw => movesFit_iff.mp h w (List.mem_of_mem_tail hw)

/-- The words of the ports fit whatever the engines hold, so long as they do in the queue and the moves. -/
theorem wordsFit_congr {s t : State} (h : s.WordsFit) (hcfg : t.cfg = s.cfg) (hin : t.decIn = s.decIn)
    (hmoves : t.moves = s.moves) : t.WordsFit := by
  obtain ⟨hwords, hfit⟩ := h
  refine ⟨?_, ?_⟩
  · rwa [hcfg, hin]
  · rwa [hcfg, hmoves]

theorem wordsFit_dropMove {s : State} (h : s.WordsFit) : s.dropMove.WordsFit := by
  obtain ⟨hwords, hfit⟩ := h
  exact ⟨hwords, movesFit_tail hfit⟩

theorem wordsFit_dropWord {s : State} (p : Port) (h : s.WordsFit) : (s.dropWord p).WordsFit := by
  obtain ⟨hwords, hfit⟩ := h
  cases p with
  | enc => exact ⟨hwords, hfit⟩
  | dec => exact ⟨fun w hw => hwords w (List.mem_of_mem_tail hw), hfit⟩

theorem wordsFit_present {s : State} {w : InWord} (h : s.WordsFit) (hw : w.fits s.cfg = true) :
    (s.present w).WordsFit := by
  obtain ⟨hwords, hfit⟩ := h
  cases w with
  | enc v => exact ⟨hwords, hfit⟩
  | dec v =>
    refine ⟨fun u hu => ?_, hfit⟩
    obtain hu | hu := List.mem_append.mp hu
    · exact hwords u hu
    · rw [List.mem_singleton.mp hu]
      exact of_decide_eq_true hw

/-- A word waiting fits its port. -/
theorem fits_of_mem_waiting {s : State} {p : Port} {w : InWord} (h : s.WordsFit) (hw : w ∈ s.waiting p) :
    w.fits s.cfg = true := by
  obtain ⟨hwords, -⟩ := h
  cases p with
  | enc => obtain ⟨v, -, rfl⟩ := List.mem_map.mp hw; rfl
  | dec => obtain ⟨v, hv, rfl⟩ := List.mem_map.mp hw; exact decide_eq_true (hwords v hv)

/-! ## The steps -/

/-- A step keeps the width of the words on the ports, and `CW` (R70, R78). -/
theorem step_keeps_wordsFit {s t : State} (h : step s = .next t) (hs : s.WordsFit) : t.WordsFit ∧ t.cfg = s.cfg := by
  have hrest := wordsFit_dropMove hs
  obtain ⟨w, hm, rfl⟩ | ⟨p, b, -, rfl⟩ | ⟨-, rfl⟩ | ⟨p, -, -, rfl⟩ | ⟨p, w, i, -, -, -, hi⟩ := step_next_cases h
  · obtain ⟨-, hfit⟩ := hs
    have hw : w.fits s.cfg = true := movesFit_iff.mp hfit w (List.mem_of_head? hm)
    exact ⟨wordsFit_present hrest hw, by cases w <;> rfl⟩
  · cases p <;> exact ⟨hrest, rfl⟩
  · obtain ⟨-, hfit⟩ := hrest
    exact ⟨⟨nofun, hfit⟩, rfl⟩
  · exact ⟨hrest, rfl⟩
  · obtain ⟨-, -, hcfg, -, hin, -, -, -, -, hmoves⟩ := instructionsTouchOnlyTheirEngine _ _ _ hi
    exact ⟨wordsFit_congr (wordsFit_dropWord p hrest) hcfg hin hmoves, by rw [hcfg, dropWord_cfg, dropMove_cfg]⟩

/-- A step keeps the engines' invariant (R37 to R39). -/
theorem step_keeps_enginesInv {s t : State} (h : step s = .next t) (hs : s.EnginesInv) : t.EnginesInv := by
  obtain ⟨w, -, rfl⟩ | ⟨p, b, -, rfl⟩ | ⟨-, rfl⟩ | ⟨p, -, -, rfl⟩ | ⟨p, w, i, -, -, -, hi⟩ := step_next_cases h
  · cases w <;> exact hs
  · cases p <;> exact hs
  · exact ⟨encIdle_inv.1, encIdle_inv.2, decIdle_inv⟩
  · exact hs
  · exact exec_keeps_enginesInv hi (by cases p <;> exact hs)

/-- Settles O28: the engines' part and the ports' part, each kept by every step. -/
theorem everyStepKeepsTheInvariant : Obligations.EveryStepKeepsTheInvariant := by
  intro s t hinv h
  obtain ⟨henc, hphase, hdec, hwords⟩ := hinv
  obtain ⟨henc', hphase', hdec'⟩ := step_keeps_enginesInv h ⟨henc, hphase, hdec⟩
  obtain ⟨hwords', hcfg⟩ := step_keeps_wordsFit h hwords
  exact ⟨⟨henc', hphase', hdec', hwords'⟩, hcfg⟩

/-- Settles O27: both engines are idle, no word waits, and the moves fit by hypothesis. -/
theorem invariantHoldsAtReset : Obligations.InvariantHoldsAtReset := fun _ _ hfit =>
  ⟨encIdle_inv.1, encIdle_inv.2, decIdle_inv, nofun, hfit⟩

/-- Where the words fit the ports a step answers a next state: a word taken decodes, and its instruction completes. -/
theorem step_total {s : State} (h : s.WordsFit) : ∃ t, step s = .next t := by
  obtain ⟨w, -, hs⟩ | ⟨p, b, -, hs⟩ | ⟨-, hs⟩ | ⟨p, -, hs⟩ := step_cases s
  · exact ⟨_, hs⟩
  · exact ⟨_, hs⟩
  · exact ⟨_, hs⟩
  · obtain ⟨-, hrun⟩ | ⟨w, i, -, -, hrun⟩ | ⟨w, hf, hfit, -⟩ := runTaken_fetch_cases s.dropMove p
    · exact ⟨_, hs.trans hrun⟩
    · obtain ⟨t, ht⟩ := exec_total i (s.dropMove.dropWord p)
      exact ⟨t, hs.trans (hrun.trans ht)⟩
    · obtain ⟨-, hwaiting, -⟩ := of_fetch_eq_some hf
      have hmem : w ∈ s.dropMove.waiting p := hwaiting ▸ List.mem_cons_self
      rw [fits_of_mem_waiting (wordsFit_dropMove h) hmem] at hfit
      cases hfit

/-- Settles O29: the step completes, and keeps the words' widths. -/
theorem nothingFaultsOrSticks : Obligations.NothingFaultsOrSticks := by
  intro s h
  obtain ⟨t, ht⟩ := step_total h
  exact ⟨t, ht, (step_keeps_wordsFit ht h).1⟩

end Sys2Proof.Machine
end

section
/-! The ports over whole runs (spec/20_memory.md R56, R57, spec/70_reset_and_hazards.md R237): of the words of a port a
first part has been executed, in order, and the rest waits. A run with the output taken accepts them all. -/

namespace Sys2Proof.Machine

/-! ## Agreement on an engine -/

section
variable {p : Port} {s t u : State}

theorem sameEngine_refl (p : Port) (s : State) : s.SameEngine p s := by cases p <;> exact ⟨rfl, rfl⟩

theorem sameEngine_trans (h : s.SameEngine p t) (h' : t.SameEngine p u) : s.SameEngine p u := by
  cases p <;> exact ⟨h.1.trans h'.1, h.2.trans h'.2⟩

end

theorem sameEngine_dropMove (p : Port) (s : State) : s.dropMove.SameEngine p s := by cases p <;> exact ⟨rfl, rfl⟩

theorem sameEngine_dropWord (p q : Port) (s : State) : (s.dropWord q).SameEngine p s := by
  cases p <;> cases q <;> exact ⟨rfl, rfl⟩

theorem sameEngine_present (p : Port) (s : State) (w : InWord) : (s.present w).SameEngine p s := by
  cases p <;> cases w <;> exact ⟨rfl, rfl⟩

theorem sameEngine_setReady (p q : Port) (b : Bool) (s : State) : (s.setReady b q).SameEngine p s := by
  cases p <;> cases q <;> exact ⟨rfl, rfl⟩

/-! ## Instructions, port by port -/

/-- The frame of an instruction, read port by port (R21). -/
theorem exec_frame {i : Instr} {s t : State} (h : exec i s = .next t) :
    t.cfg = s.cfg ∧ (∀ q, t.waiting q = s.waiting q) ∧ (∀ q, t.ready q = s.ready q) ∧ t.moves = s.moves ∧
      ∀ q, i.port ≠ q → t.SameEngine q s := by
  obtain ⟨henc, hdec, hcfg, hencIn, hdecIn, hencReady, hdecReady, -, -, hmoves⟩ :=
    instructionsTouchOnlyTheirEngine i s t h
  refine ⟨hcfg, fun q => ?_, fun q => ?_, hmoves, fun q hq => ?_⟩
  · cases q <;> simp [hencIn, hdecIn]
  · cases q <;> simp [hencReady, hdecReady]
  · cases hp : i.port with
    | enc =>
      obtain ⟨hregs, hout, -⟩ := henc hp
      cases q with
      | enc => exact absurd hp hq
      | dec => exact ⟨hregs, hout⟩
    | dec =>
      obtain ⟨hregs, hout, -⟩ := hdec hp
      cases q with
      | enc => exact ⟨hregs, hout⟩
      | dec => exact absurd hp hq

/-- What an instruction does to its engine depends on that engine only (R21). -/
theorem exec_sameEngine {i : Instr} {s s' t : State} (hs : s.SameEngine i.port s') (h : exec i s = .next t) :
    ∃ t', exec i s' = .next t' ∧ t.SameEngine i.port t' := by
  cases i with
  | encPut a d =>
    obtain ⟨hregs, hout⟩ := hs
    obtain rfl := Host.Outcome.next.inj h
    exact ⟨_, rfl, by simp [hregs], by simp [hregs, hout]⟩
  | encEnd a x =>
    obtain ⟨hregs, hout⟩ := hs
    obtain rfl := Host.Outcome.next.inj h
    exact ⟨_, rfl, by simp, by simp [hregs, hout]⟩
  | decPut a c =>
    obtain ⟨hregs, hout⟩ := hs
    obtain rfl := Host.Outcome.next.inj h
    exact ⟨_, rfl, by simp [hregs], by simp [hregs, hout]⟩
  | decEnd a x =>
    obtain ⟨hregs, hout⟩ := hs
    obtain rfl := Host.Outcome.next.inj h
    exact ⟨_, rfl, by simp [hregs], by simp [hregs, hout]⟩

/-- A sequence of one engine's instructions depends on that engine only. -/
theorem execAll_sameEngine {p : Port} (is : List Instr) (his : ∀ i ∈ is, i.port = p) : ∀ {s s' t : State},
    s.SameEngine p s' → execAll is s = .next t → ∃ t', execAll is s' = .next t' ∧ t.SameEngine p t' := by
  induction is with
  | nil =>
    intro s s' t hs h
    obtain rfl := Host.Outcome.next.inj h
    exact ⟨s', rfl, hs⟩
  | cons i is ih =>
    intro s s' t hs h
    obtain ⟨rfl, his⟩ := List.forall_mem_cons.mp his
    obtain ⟨u, hu⟩ := exec_total i s
    obtain ⟨u', hu', hsame⟩ := exec_sameEngine hs hu
    rw [execAll_cons_of_next is hu] at h
    rw [execAll_cons_of_next is hu']
    exact ih his hsame h

/-- A word decodes to an instruction of its port (R76). -/
theorem port_of_decode {cfg : Config} {w : InWord} {i : Instr} (h : decode cfg w = .ok i) : i.port = w.port := by
  cases hfit : w.fits cfg with
  | true =>
    obtain ⟨j, hj, -, hport, -⟩ := encode_decode hfit
    obtain rfl := Except.ok.inj (hj.symm.trans h)
    exact hport
  | false =>
    rw [decode_of_not_fits hfit] at h
    cases h

theorem port_of_mem_instrsOf {cfg : Config} {p : Port} : ∀ {ws : List InWord}, (∀ w ∈ ws, w.port = p) →
    ∀ i ∈ instrsOf cfg ws, i.port = p
  | [], _, i, hi => nomatch hi
  | w :: ws, hws, i, hi => by
    obtain ⟨hw, hws⟩ := List.forall_mem_cons.mp hws
    cases hd : decode cfg w with
    | error r =>
      simp only [instrsOf, hd] at hi
      exact port_of_mem_instrsOf hws i hi
    | ok j =>
      simp only [instrsOf, hd, List.mem_cons] at hi
      obtain rfl | hi := hi
      · exact (port_of_decode hd).trans hw
      · exact port_of_mem_instrsOf hws i hi

/-! ## What has been delivered -/

/-- In `t` the engine of the port `p` is where executing the words `ws`, which stand on `p`, from `s` leaves it. -/
def Delivered (p : Port) (s t : State) (ws : List InWord) : Prop :=
  (∀ w ∈ ws, w.port = p) ∧ ∃ u, execAll (instrsOf s.cfg ws) s = .next u ∧ t.SameEngine p u

theorem Delivered.nil {p : Port} {s t : State} (h : t.SameEngine p s) : Delivered p s t [] := ⟨nofun, s, rfl, h⟩

theorem Delivered.append {p : Port} {s t u : State} {ws vs : List InWord} (hcfg : t.cfg = s.cfg)
    (h : Delivered p s t ws) (h' : Delivered p t u vs) : Delivered p s u (ws ++ vs) := by
  obtain ⟨hws, t', ht', hsame⟩ := h
  obtain ⟨hvs, u', hu', hsame'⟩ := h'
  refine ⟨fun w hw => (List.mem_append.mp hw).elim (hws w) (hvs w), ?_⟩
  obtain ⟨u'', hu'', hsame''⟩ := execAll_sameEngine _ (port_of_mem_instrsOf hvs) hsame hu'
  rw [instrsOf_append, execAll_append _ _ _ _ ht', ← hcfg]
  exact ⟨u'', hu'', sameEngine_trans hsame' hsame''⟩

/-- What has happened at the port `p` from `s` to `t` while the moves `ms` happened: of the words waiting or presented a
first part has been delivered and the others wait, and the consumer is as the moves have left it (R56, R237). -/
structure PortTrace (p : Port) (s : State) (ms : List Move) (t : State) : Prop where
  cfg : t.cfg = s.cfg
  ready : t.ready p = readyAfter p (s.ready p) ms
  words : ∃ done, s.waiting p ++ wordsOf p ms = done ++ t.waiting p ∧ Delivered p s t done

theorem PortTrace.refl (p : Port) (s : State) : PortTrace p s [] s :=
  ⟨rfl, rfl, [], by simp, .nil (sameEngine_refl p s)⟩

theorem PortTrace.trans {p : Port} {s t u : State} {ms ns : List Move} (h : PortTrace p s ms t)
    (h' : PortTrace p t ns u) : PortTrace p s (ms ++ ns) u := by
  obtain ⟨hcfg, hready, done, hwords, hdone⟩ := h
  obtain ⟨hcfg', hready', done', hwords', hdone'⟩ := h'
  refine ⟨hcfg'.trans hcfg, by rw [hready', hready, readyAfter_append], done ++ done', ?_, hdone.append hcfg hdone'⟩
  calc s.waiting p ++ wordsOf p (ms ++ ns) = done ++ (t.waiting p ++ wordsOf p ns) := by
        rw [wordsOf_append, ← List.append_assoc, hwords, List.append_assoc]
    _ = done ++ done' ++ u.waiting p := by rw [hwords', List.append_assoc]

/-- A trace is read the same from a state that agrees at the port. -/
theorem PortTrace.congr {p : Port} {s s' t : State} {ms : List Move} (h : PortTrace p s ms t) (hcfg : s.cfg = s'.cfg)
    (hready : s.ready p = s'.ready p) (hwaiting : s.waiting p = s'.waiting p) (hsame : s.SameEngine p s') :
    PortTrace p s' ms t := by
  obtain ⟨hcfg', hready', done, hwords, hports, u, hu, hsameu⟩ := h
  obtain ⟨u', hu', hsameu'⟩ := execAll_sameEngine _ (port_of_mem_instrsOf hports) hsame hu
  refine ⟨hcfg'.trans hcfg, by rw [← hready, hready'], done, by rw [← hwaiting, hwords], hports, u', ?_, ?_⟩
  · rwa [← hcfg]
  · exact sameEngine_trans hsameu hsameu'

/-! ## One step at a port -/

/-- A step takes the next move off the list. -/
theorem step_moves {s t : State} (h : step s = .next t) : t.moves = s.moves.tail := by
  obtain ⟨w, -, rfl⟩ | ⟨p, b, -, rfl⟩ | ⟨-, rfl⟩ | ⟨p, -, -, rfl⟩ | ⟨p, w, i, -, -, -, hi⟩ := step_next_cases h
  · cases w <;> rfl
  · cases p <;> rfl
  · rfl
  · rfl
  · obtain ⟨-, -, -, hmoves, -⟩ := exec_frame hi
    rw [hmoves, dropWord_moves, dropMove_moves]

theorem take_one_of_head? {ms : List Move} {m : Move} (h : ms.head? = some m) : ms.take 1 = [m] := by
  obtain ⟨ns, rfl⟩ := List.head?_eq_some_iff.mp h
  rfl

/-- An engine's turn presents no word and moves no consumer. -/
theorem State.Turn.take_one {s : State} {q : Port} (h : s.Turn q) (p : Port) (b : Bool) :
    wordsOf p (s.moves.take 1) = [] ∧ readyAfter p b (s.moves.take 1) = b := by
  obtain hlisted | ⟨hnone, -⟩ := h
  · rw [take_one_of_head? hlisted]
    exact ⟨rfl, rfl⟩
  · rw [hnone]
    exact ⟨rfl, rfl⟩

/-- A presented word joins the end of its own port's queue (R56). -/
theorem present_waiting (s : State) (w : InWord) (p : Port) :
    (s.present w).waiting p = s.waiting p ++ wordsOf p [.present w] := by
  cases p <;> cases w <;> simp [wordsOf, InWord.port]

theorem present_ready (s : State) (w : InWord) (p : Port) : (s.present w).ready p = s.ready p := by
  cases p <;> cases w <;> rfl

theorem setReady_waiting (s : State) (b : Bool) (p q : Port) : (s.setReady b q).waiting p = s.waiting p := by
  cases p <;> cases q <;> rfl

theorem setReady_ready (s : State) (b : Bool) (p q : Port) :
    (s.setReady b q).ready p = readyAfter p (s.ready p) [.ready q b] := by
  cases p <;> cases q <;> rfl

/-- The beat an engine runs at its turn is one word off its port, delivered; the other port is left as it was. -/
theorem portTrace_of_beat {p q : Port} {s t : State} {w : InWord} {i : Instr} (hturn : s.Turn q)
    (hf : s.dropMove.fetch q = some (w, s.dropMove.dropWord q)) (hi : decode s.cfg w = .ok i)
    (ht : exec i (s.dropMove.dropWord q) = .next t) : PortTrace p s (s.moves.take 1) t := by
  obtain ⟨hwords, hready⟩ := hturn.take_one p (s.ready p)
  obtain ⟨-, hwaiting, -⟩ := of_fetch_eq_some hf
  obtain ⟨hcfg, hwait, hrdy, -, hother⟩ := exec_frame ht
  have hport : w.port = q := port_of_mem_waiting (hwaiting ▸ List.mem_cons_self)
  have hiport : i.port = q := (port_of_decode hi).trans hport
  have hsame : ∀ r, (s.dropMove.dropWord q).SameEngine r s := fun r =>
    sameEngine_trans (sameEngine_dropWord r q _) (sameEngine_dropMove r s)
  rw [dropMove_waiting] at hwaiting
  refine ⟨by simp [hcfg], by simp [hready, hrdy], ?_⟩
  rw [hwords, List.append_nil, hwait]
  by_cases hqp : q = p
  · subst hqp
    subst hiport
    obtain ⟨u, hu, hsameu⟩ := exec_sameEngine (hsame _) ht
    refine ⟨[w], by simpa using hwaiting, by simpa using hport, u, ?_, hsameu⟩
    simp only [instrsOf, hi, execAll, hu]
  · exact ⟨[], by rw [dropWord_waiting_other hqp, dropMove_waiting, List.nil_append],
      .nil (sameEngine_trans (hother p (hiport ▸ hqp)) (hsame p))⟩

/-- A step without a reset event, at a port. -/
theorem portTrace_of_step {s t : State} (p : Port) (h : step s = .next t) (hreset : s.moves.head? ≠ some .reset) :
    PortTrace p s (s.moves.take 1) t := by
  have hrest := sameEngine_dropMove p s
  obtain ⟨w, hm, rfl⟩ | ⟨q, b, hm, rfl⟩ | ⟨hm, -⟩ | ⟨q, hturn, -, rfl⟩ | ⟨q, w, i, hturn, hf, hi, ht⟩ :=
    step_next_cases h
  · rw [take_one_of_head? hm]
    exact ⟨by cases w <;> rfl, by rw [present_ready, dropMove_ready]; rfl, [],
      by rw [present_waiting, dropMove_waiting]; rfl, .nil (sameEngine_trans (sameEngine_present p _ w) hrest)⟩
  · rw [take_one_of_head? hm]
    refine ⟨by cases q <;> rfl, by rw [setReady_ready, dropMove_ready], [], ?_,
      .nil (sameEngine_trans (sameEngine_setReady p q b _) hrest)⟩
    rw [setReady_waiting, dropMove_waiting, wordsOf_ready, wordsOf_nil, List.append_nil, List.nil_append]
  · exact absurd hm hreset
  · obtain ⟨hwords, hready⟩ := hturn.take_one p (s.ready p)
    exact ⟨rfl, by rw [hready, dropMove_ready], [], by rw [hwords, dropMove_waiting, List.append_nil, List.nil_append],
      .nil hrest⟩
  · exact portTrace_of_beat hturn hf hi ht

/-! ## Whole runs -/

/-- One step, then the others. -/
theorem run_succ {n : Nat} {s t : State} (h : step s = .next t) : run (n + 1) s = run n t := by
  simp only [run, h]

/-- A run that completes begins with a step that does. -/
theorem of_run_succ {n : Nat} {s u : State} (h : run (n + 1) s = .next u) :
    ∃ t, step s = .next t ∧ run n t = .next u := by
  cases hs : step s with
  | next t => exact ⟨t, rfl, (run_succ hs).symm.trans h⟩
  | fault r => simp [run, hs] at h
  | refused r => simp [run, hs] at h

/-- Runs from states whose words fit the ports complete (R195, R212). -/
theorem run_total : ∀ (n : Nat) {s : State}, s.WordsFit → ∃ t, run n s = .next t
  | 0, s, _ => ⟨s, rfl⟩
  | n + 1, s, h => by
    obtain ⟨t, ht⟩ := step_total h
    obtain ⟨u, hu⟩ := run_total n (step_keeps_wordsFit ht h).1
    exact ⟨u, (run_succ ht).trans hu⟩

theorem run_keeps_wordsFit : ∀ {n : Nat} {s t : State}, run n s = .next t → s.WordsFit → t.WordsFit
  | 0, s, t, h, hs => by
    obtain rfl := Host.Outcome.next.inj h
    exact hs
  | n + 1, s, t, h, hs => by
    obtain ⟨u, hu, hrest⟩ := of_run_succ h
    exact run_keeps_wordsFit hrest (step_keeps_wordsFit hu hs).1

/-- A run takes one move off the list for each step. -/
theorem run_moves : ∀ {n : Nat} {s t : State}, run n s = .next t → t.moves = s.moves.drop n
  | 0, s, t, h => by
    obtain rfl := Host.Outcome.next.inj h
    rfl
  | n + 1, s, t, h => by
    obtain ⟨u, hu, hrest⟩ := of_run_succ h
    rw [run_moves hrest, step_moves hu, List.drop_tail]

/-- A run without a reset event, at a port. -/
theorem portTrace_of_run (p : Port) : ∀ {n : Nat} {s t : State}, run n s = .next t → .reset ∉ s.moves.take n →
    PortTrace p s (s.moves.take n) t
  | 0, s, t, h, _ => by
    obtain rfl := Host.Outcome.next.inj h
    exact .refl p s
  | n + 1, s, t, h, hreset => by
    obtain ⟨u, hu, hrest⟩ := of_run_succ h
    have hmoves := step_moves hu
    have hsplit : s.moves.take (n + 1) = s.moves.take 1 ++ u.moves.take n := by
      rw [hmoves, Nat.add_comm, List.take_add, List.drop_one]
    rw [hsplit, List.mem_append, not_or] at hreset
    obtain ⟨hfirst, hlater⟩ := hreset
    rw [hsplit]
    refine (portTrace_of_step p hu fun hhead => hfirst ?_).trans (portTrace_of_run p hrest hlater)
    rw [take_one_of_head? hhead]
    exact List.mem_singleton_self _

/-- Settles O47: the words delivered are the first `k` of the trace. -/
theorem portsLoseDuplicateAndReorderNothing : Obligations.PortsLoseDuplicateAndReorderNothing := by
  intro n s t p h hreset ws
  obtain ⟨-, -, done, hwords, -, hdone⟩ := portTrace_of_run p h hreset
  have hws : ws = done ++ t.waiting p := hwords
  refine ⟨done.length, ?_, ?_, ?_⟩
  · rw [hws, List.length_append]
    exact Nat.le_add_right _ _
  · rw [hws, List.drop_left]
  · rwa [hws, List.take_left]

/-! ## Progress when the list of moves is over -/

/-- How many words wait on the two ports. -/
def State.backlog (s : State) : Nat := (s.waiting .enc).length + (s.waiting .dec).length

/-- With no move listed, and a word waiting whose output is taken, a step takes a word off one of the ports (R237). -/
theorem step_backlog {s t : State} {p : Port} (hmoves : s.moves = []) (hr : s.ready p = true) (hw : s.waiting p ≠ [])
    (h : step s = .next t) : t.backlog + 1 = s.backlog := by
  have hdrop := dropMove_of_no_moves hmoves
  obtain ⟨w, hm, -⟩ | ⟨q, b, hm, -⟩ | ⟨hm, -⟩ | ⟨q, hturn, hf, -⟩ | ⟨q, w, i, -, hf, -, ht⟩ := step_next_cases h
  · simp [hmoves] at hm
  · simp [hmoves] at hm
  · simp [hmoves] at hm
  · obtain hlisted | ⟨-, hany, -⟩ := hturn
    · simp [hmoves] at hlisted
    · rw [hdrop] at hf
      have hnone : s.fetch p = none := by
        obtain ⟨r, -, hsome⟩ | ⟨-, r, -, hsome⟩ | ⟨he, hd, -⟩ := fetchAny_cases s
        · simp [hany, hf] at hsome
        · simp [hany, hf] at hsome
        · cases p
          · exact he
          · exact hd
      simp [fetch_eq_none_iff, hr, hw] at hnone
  · obtain ⟨-, hwait, -, -, -⟩ := exec_frame ht
    obtain ⟨-, hwaiting, -⟩ := of_fetch_eq_some hf
    have hlen := congrArg List.length hwaiting
    rw [hdrop] at hwait hlen
    rw [List.length_cons] at hlen
    rw [State.backlog, State.backlog, hwait, hwait]
    cases q with
    | enc =>
      rw [dropWord_waiting_same, dropWord_waiting_other (by decide)]
      omega
    | dec =>
      rw [dropWord_waiting_same, dropWord_waiting_other (by decide)]
      omega

/-- With no move listed, as many steps as words wait are enough for the port whose output is taken. -/
theorem run_drains (p : Port) : ∀ (n : Nat) {s : State}, s.WordsFit → s.moves = [] → s.ready p = true →
    s.backlog ≤ n ∨ s.waiting p = [] → ∃ t, run n s = .next t ∧ t.waiting p = []
  | 0, s, _, _, _, hn => by
    refine ⟨s, rfl, ?_⟩
    obtain hn | hn := hn
    · rw [State.backlog] at hn
      cases p <;> exact List.length_eq_zero_iff.mp (by omega)
    · exact hn
  | n + 1, s, hfit, hmoves, hr, hn => by
    obtain ⟨t, ht⟩ := step_total hfit
    obtain ⟨-, hready, done, hwords, -⟩ := portTrace_of_step p ht (by simp [hmoves])
    have hmoves' : t.moves = [] := by rw [step_moves ht, hmoves, List.tail_nil]
    rw [hmoves] at hready hwords
    have hn' : t.backlog ≤ n ∨ t.waiting p = [] := by
      by_cases hw : s.waiting p = []
      · rw [hw] at hwords
        exact .inr (List.append_eq_nil_iff.mp hwords.symm).2
      · have hless := step_backlog hmoves hr hw ht
        exact .inl (by have := hn.resolve_right hw; omega)
    obtain ⟨u, hu, hempty⟩ := run_drains p n (step_keeps_wordsFit ht hfit).1 hmoves' (hready.trans hr) hn'
    exact ⟨u, (run_succ ht).trans hu, hempty⟩

/-- Settles O48: the moves listed leave at most the words waiting or presented, which the rest of the run drains. -/
theorem takenOutputDrainsThePort : Obligations.TakenOutputDrainsThePort := by
  intro s p hfit hreset hready ws n hn
  obtain ⟨t, ht⟩ := run_total s.moves.length hfit
  have hmoves : t.moves = [] := by rw [run_moves ht, List.drop_length]
  have htrace : ∀ q, PortTrace q s s.moves t := fun q => by
    simpa using portTrace_of_run q ht (by simpa using hreset)
  have hless : ∀ q, (t.waiting q).length ≤ (ws q).length := fun q => by
    obtain ⟨-, -, done, hwords, -⟩ := htrace q
    have hlen := congrArg List.length hwords
    rw [List.length_append (as := done)] at hlen
    exact (Nat.le_add_left _ _).trans hlen.ge
  have hbacklog : t.backlog ≤ n - s.moves.length := by
    have henc := hless .enc
    have hdec := hless .dec
    rw [State.backlog]
    omega
  obtain ⟨u, hu, hempty⟩ := run_drains p (n - s.moves.length) (run_keeps_wordsFit ht hfit) hmoves
    ((htrace p).ready.trans hready) (.inl hbacklog)
  have hrun : run n s = .next u := by
    rw [← hu, ← run_add _ _ _ _ ht, Nat.add_sub_cancel' (by omega)]
  have hall : s.moves.take n = s.moves := List.take_of_length_le (by omega)
  obtain ⟨-, -, done, hwords, -, v, hv, hsame⟩ := portTrace_of_run p hrun (by rwa [hall])
  rw [hall, hempty, List.append_nil] at hwords
  exact ⟨u, v, hrun, hempty, by rwa [← hwords] at hv, hsame⟩

end Sys2Proof.Machine
end

section
/-! Unending schedules (spec/70_reset_and_hazards.md R237): a step does not depend on the moves after the next one, so a
schedule has a state at every moment, and under fairness every count of words delivered is reached. -/

namespace Sys2Proof.Machine

/-! ## The later moves do not matter -/

/-- No instruction reads the list of moves. -/
theorem exec_replace_moves {i : Instr} {s t : State} (ms : List Move) (h : exec i s = .next t) :
    exec i { s with moves := ms } = .next { t with moves := ms } := by
  cases i <;> obtain rfl := Host.Outcome.next.inj h <;> rfl

theorem dropWord_replace_moves (s : State) (p : Port) (ms : List Move) :
    State.dropWord { s with moves := ms } p = { s.dropWord p with moves := ms } := by cases p <;> rfl

theorem sameEngine_replace_moves (p : Port) (s : State) (ms : List Move) :
    State.SameEngine p { s with moves := ms } s := by cases p <;> exact ⟨rfl, rfl⟩

/-- What an engine does at its turn does not depend on the list of moves. -/
theorem runTaken_replace_moves {s t : State} {p : Port} (ms : List Move) (h : runTaken s (s.fetch p) = .next t) :
    runTaken { s with moves := ms } (State.fetch { s with moves := ms } p) = .next { t with moves := ms } := by
  obtain ⟨hf, hrun⟩ | ⟨w, i, hf, hi, hrun⟩ | ⟨w, -, -, hrun⟩ := runTaken_fetch_cases s p
  · obtain rfl := Host.Outcome.next.inj (hrun.symm.trans h)
    rw [fetch_eq_none_iff, ← ready_replace_moves s ms, ← waiting_replace_moves s ms, ← fetch_eq_none_iff] at hf
    rw [hf]
    rfl
  · obtain ⟨hr, hw, -⟩ := of_fetch_eq_some hf
    rw [fetch_of_waiting ((ready_replace_moves s ms p).trans hr) ((waiting_replace_moves s ms p).trans hw),
      dropWord_replace_moves]
    exact (runWord_of_ok (by simpa using hi)).trans (exec_replace_moves ms (hrun.symm.trans h))
  · rw [hrun] at h
    cases h

/-- A step reads only the first of the moves listed. -/
theorem step_replace_moves {s t : State} {m : Move} {ms : List Move} (ns : List Move) (hm : s.moves = m :: ms)
    (h : step s = .next t) : step { s with moves := m :: ns } = .next { t with moves := ns } := by
  cases m with
  | present w =>
    obtain rfl := Host.Outcome.next.inj ((step_of_present hm).symm.trans h)
    cases w <;> rfl
  | ready p b =>
    obtain rfl := Host.Outcome.next.inj ((step_of_ready hm).symm.trans h)
    cases p <;> rfl
  | reset =>
    obtain rfl := Host.Outcome.next.inj ((step_of_reset hm).symm.trans h)
    rfl
  | accept p =>
    rw [step, hm] at h
    exact runTaken_replace_moves (s := { s with moves := ms }) ns h

/-- A run reads only as many of the moves listed as it has steps. -/
theorem run_append_moves : ∀ (ms ns : List Move) {s t : State}, run ms.length { s with moves := ms } = .next t →
    run ms.length { s with moves := ms ++ ns } = .next { t with moves := ns }
  | [], ns, s, t, h => by
    obtain rfl := Host.Outcome.next.inj h
    rfl
  | m :: ms, ns, s, t, h => by
    obtain ⟨u, hu, hrest⟩ := of_run_succ h
    have hmoves : u.moves = ms := step_moves hu
    have hsame : { u with moves := ms } = u := by rw [← hmoves]
    exact (run_succ (step_replace_moves (ms ++ ns) rfl hu)).trans (run_append_moves ms ns (hsame ▸ hrest))

/-! ## The state at a moment of a schedule -/

section
variable {s : State} {f : Nat → Move} {p : Port}

/-- `σ n` is the state after the first `n` moves of the schedule `f` from `s`. -/
def Follows (s : State) (f : Nat → Move) (σ : Nat → State) : Prop :=
  ∀ n, run n { s with moves := movesUpTo f n } = .next (σ n)

/-- A schedule that presents only words of the ports' widths has a state at every moment. -/
theorem exists_follows (hwords : ∀ w ∈ s.decIn, w < 2 ^ (s.cfg.cw + 2))
    (hfit : ∀ n w, f n = .present w → w.fits s.cfg = true) : ∃ σ, Follows s f σ := by
  have hmoves : ∀ n, movesFit s.cfg (movesUpTo f n) = true := fun n => movesFit_iff.mpr fun w hw =>
    let ⟨k, _, hk⟩ := mem_movesUpTo.mp hw
    hfit k w hk
  choose σ hσ using fun n => run_total n (s := { s with moves := movesUpTo f n }) ⟨hwords, hmoves n⟩
  exact ⟨σ, hσ⟩

variable {σ : Nat → State} (hσ : Follows s f σ)
include hσ

/-- From one moment to the next the machine takes the step of the move between. -/
theorem Follows.step (n : Nat) : step { σ n with moves := [f n] } = .next (σ (n + 1)) := by
  have hrun := hσ (n + 1)
  have hfirst := run_append_moves (movesUpTo f n) [f n] (s := s) (by rw [movesUpTo_length]; exact hσ n)
  rw [movesUpTo_length, ← movesUpTo_succ] at hfirst
  rw [run_add n 1 _ _ hfirst] at hrun
  obtain ⟨t, ht, hlast⟩ := of_run_succ hrun
  obtain rfl := Host.Outcome.next.inj hlast
  exact ht

variable (hreset : ∀ n, f n ≠ .reset)
include hreset

/-- The whole schedule up to a moment, at a port. -/
theorem Follows.portTrace (n : Nat) : PortTrace p s (movesUpTo f n) (σ n) := by
  have hmem : .reset ∉ movesUpTo f n := fun hmem =>
    let ⟨k, _, hk⟩ := mem_movesUpTo.mp hmem
    hreset k hk
  have htake : (movesUpTo f n).take n = movesUpTo f n := List.take_of_length_le (movesUpTo_length f n).le
  have htrace := portTrace_of_run p (hσ n) (by rwa [htake])
  rw [htake] at htrace
  exact htrace.congr rfl (ready_replace_moves s _ p) (waiting_replace_moves s _ p) (sameEngine_replace_moves p s _)

end

/-! ## The number of words delivered -/

/-- The words waiting at the start or presented in the first `n` moves (R56). -/
def presentedBy (p : Port) (s : State) (f : Nat → Move) (n : Nat) : List InWord :=
  s.waiting p ++ wordsOf p (movesUpTo f n)

theorem presentedBy_succ (p : Port) (s : State) (f : Nat → Move) (n : Nat) :
    presentedBy p s f (n + 1) = presentedBy p s f n ++ wordsOf p [f n] := by
  rw [presentedBy, movesUpTo_succ, wordsOf_append, ← List.append_assoc, presentedBy]

/-- The words presented by a later moment are those presented by an earlier one, and those presented since. -/
theorem presentedBy_split (p : Port) (s : State) (f : Nat → Move) {n m : Nat} (h : n ≤ m) :
    presentedBy p s f m = presentedBy p s f n ++ wordsOf p ((movesUpTo f m).drop n) := by
  have htake : (movesUpTo f m).take n = movesUpTo f n := by
    rw [movesUpTo, ← List.map_take, List.take_range, Nat.min_eq_left h, movesUpTo]
  rw [presentedBy, presentedBy, List.append_assoc, ← wordsOf_append, ← htake, List.take_append_drop]

/-- At a step without a reset event a port gains the words presented, or loses its oldest one (R56). -/
theorem step_waiting {s t : State} (p : Port) (h : step s = .next t) (hreset : s.moves.head? ≠ some .reset) :
    t.waiting p = s.waiting p ++ wordsOf p (s.moves.take 1) ∨
      wordsOf p (s.moves.take 1) = [] ∧ (s.waiting p).length = (t.waiting p).length + 1 := by
  obtain ⟨w, hm, rfl⟩ | ⟨q, b, hm, rfl⟩ | ⟨hm, -⟩ | ⟨q, hturn, -, rfl⟩ | ⟨q, w, i, hturn, hf, -, ht⟩ :=
    step_next_cases h
  · exact .inl (by rw [take_one_of_head? hm, present_waiting, dropMove_waiting])
  · exact .inl (by
      rw [take_one_of_head? hm, setReady_waiting, dropMove_waiting, wordsOf_ready, wordsOf_nil, List.append_nil])
  · exact absurd hm hreset
  · obtain ⟨hwords, -⟩ := hturn.take_one p true
    exact .inl (by rw [hwords, dropMove_waiting, List.append_nil])
  · obtain ⟨hwords, -⟩ := hturn.take_one p true
    obtain ⟨-, hwait, -⟩ := exec_frame ht
    rw [hwords, hwait]
    by_cases hqp : q = p
    · obtain ⟨-, hwaiting, -⟩ := of_fetch_eq_some hf
      have hlen := congrArg List.length hwaiting
      rw [hqp, dropMove_waiting, List.length_cons] at hlen
      exact .inr ⟨rfl, by rw [hqp, dropWord_waiting_same, dropMove_waiting, hlen]⟩
    · exact .inl (by rw [dropWord_waiting_other hqp, dropMove_waiting, List.append_nil])

/-- At its listed turn an engine whose consumer accepts takes a word, if one waits (R56, R237). -/
theorem step_accept_waiting {s t : State} {p : Port} (h : step s = .next t) (hm : s.moves.head? = some (.accept p))
    (hr : s.ready p = true) (hw : s.waiting p ≠ []) : (s.waiting p).length = (t.waiting p).length + 1 := by
  have hfetch : ∀ q, s.Turn q → q = p := by
    rintro q (hq | ⟨hnone, -⟩)
    · simpa [hm] using hq.symm
    · simp [hnone] at hm
  obtain ⟨w, hm', -⟩ | ⟨q, b, hm', -⟩ | ⟨hm', -⟩ | ⟨q, hturn, hf, -⟩ | ⟨q, w, i, hturn, hf, -, ht⟩ := step_next_cases h
  · simp [hm] at hm'
  · simp [hm] at hm'
  · simp [hm] at hm'
  · obtain rfl := hfetch q hturn
    simp [fetch_eq_none_iff, hr, hw] at hf
  · obtain rfl := hfetch q hturn
    obtain ⟨-, hwait, -⟩ := exec_frame ht
    obtain ⟨-, hwaiting, -⟩ := of_fetch_eq_some hf
    have hlen := congrArg List.length hwaiting
    rw [dropMove_waiting, List.length_cons] at hlen
    rw [hwait, dropWord_waiting_same, dropMove_waiting, hlen]

/-! ## Fairness -/

/-- A count that grows by at most one at each moment reaches every number between two of its values. -/
theorem exists_eq_of_succ_le {a : Nat → Nat} (hstep : ∀ j, a (j + 1) ≤ a j + 1) {n m N : Nat} (hnm : n ≤ m)
    (hn : a n ≤ N) (hm : N ≤ a m) : ∃ k, n ≤ k ∧ a k = N := by
  induction m, hnm using Nat.le_induction with
  | base => exact ⟨n, le_rfl, hn.antisymm hm⟩
  | succ m hnm ih =>
    by_cases hle : N ≤ a m
    · exact ih hle
    · exact ⟨m + 1, by omega, by have := hstep m; omega⟩

section
variable {s : State} {f : Nat → Move} {p : Port} {σ : Nat → State} (hσ : Follows s f σ) (hreset : ∀ n, f n ≠ .reset)

/-- How many of the words presented on `p` by the moment `n` have been delivered. -/
def deliveredCount (p : Port) (s : State) (f : Nat → Move) (σ : Nat → State) (n : Nat) : Nat :=
  (presentedBy p s f n).length - ((σ n).waiting p).length

include hσ hreset

/-- The words presented by a moment are those delivered and those waiting. -/
theorem Follows.deliveredCount_add (n : Nat) :
    deliveredCount p s f σ n + ((σ n).waiting p).length = (presentedBy p s f n).length := by
  obtain ⟨-, -, done, hwords, -⟩ := hσ.portTrace (p := p) hreset n
  have hlen : (presentedBy p s f n).length = done.length + ((σ n).waiting p).length := by
    rw [← List.length_append, ← hwords, presentedBy]
  rw [deliveredCount, hlen, Nat.add_sub_cancel]

/-- From one moment to the next the count stays or grows by one. -/
theorem Follows.deliveredCount_succ (n : Nat) :
    deliveredCount p s f σ n ≤ deliveredCount p s f σ (n + 1) ∧
      deliveredCount p s f σ (n + 1) ≤ deliveredCount p s f σ n + 1 := by
  have hnow := hσ.deliveredCount_add (p := p) hreset n
  have hthen := hσ.deliveredCount_add (p := p) hreset (n + 1)
  have hstep := step_waiting p (hσ.step n) (by simpa using hreset n)
  rw [presentedBy_succ, List.length_append] at hthen
  simp only [waiting_replace_moves, List.take_succ_cons, List.take_zero] at hstep
  obtain hgain | ⟨hnone, hlose⟩ := hstep
  · rw [hgain, List.length_append] at hthen
    omega
  · rw [hnone, List.length_nil] at hthen
    omega

/-- At its turn, the consumer accepting and a word waiting, the count grows by one. -/
theorem Follows.deliveredCount_accept {n : Nat} (hturn : f n = .accept p) (hr : (σ n).ready p = true)
    (hw : (σ n).waiting p ≠ []) : deliveredCount p s f σ (n + 1) = deliveredCount p s f σ n + 1 := by
  have hnow := hσ.deliveredCount_add (p := p) hreset n
  have hthen := hσ.deliveredCount_add (p := p) hreset (n + 1)
  have htaken := step_accept_waiting (hσ.step n) (by rw [hturn]; rfl) ((ready_replace_moves _ _ p).trans hr)
    (by rwa [waiting_replace_moves])
  rw [presentedBy_succ, hturn, wordsOf_accept, wordsOf_nil, List.append_nil] at hthen
  rw [waiting_replace_moves] at htaken
  omega

/-- Under fairness the count passes every number up to that of the words presented (R237). -/
theorem Follows.exists_le_deliveredCount (hfair : Fair p (s.ready p) f) (n : Nat) :
    ∀ N ≤ (presentedBy p s f n).length, ∃ m, n ≤ m ∧ N ≤ deliveredCount p s f σ m := by
  intro N
  induction N with
  | zero => exact fun _ => ⟨n, le_rfl, Nat.zero_le _⟩
  | succ N ih =>
    intro hN
    obtain ⟨m, hnm, hm⟩ := ih (by omega)
    obtain ⟨k, hmk, hturn, hready⟩ := hfair m
    have hk : N ≤ deliveredCount p s f σ k :=
      hm.trans (monotone_nat_of_le_succ (fun j => (hσ.deliveredCount_succ hreset j).1) hmk)
    by_cases hmore : N + 1 ≤ deliveredCount p s f σ k
    · exact ⟨k, hnm.trans hmk, hmore⟩
    · have hall := hσ.deliveredCount_add (p := p) hreset k
      have hpresented := congrArg List.length (presentedBy_split p s f (hnm.trans hmk))
      rw [List.length_append] at hpresented
      have hw : (σ k).waiting p ≠ [] := fun hnil => by
        rw [hnil, List.length_nil] at hall
        omega
      have hgrow := hσ.deliveredCount_accept hreset hturn ((hσ.portTrace hreset k).ready.trans hready) hw
      exact ⟨k + 1, by omega, by omega⟩

end

/-- Settles O49: the count of words delivered starts at most at that of the words presented before `n`, passes it under
fairness, and grows one by one; where it equals it, exactly those words have been delivered. -/
theorem fairnessDeliversEveryBeat : Obligations.FairnessDeliversEveryBeat := by
  intro s f p hwords hfit hreset hfair n
  obtain ⟨σ, hσ⟩ := exists_follows hwords hfit
  obtain ⟨k, hnk, hk⟩ := hσ.exists_le_deliveredCount hreset hfair n _ le_rfl
  have hstart : deliveredCount p s f σ n ≤ (presentedBy p s f n).length := Nat.sub_le _ _
  obtain ⟨m, hnm, hm⟩ := exists_eq_of_succ_le (fun j => (hσ.deliveredCount_succ hreset j).2) hnk hstart hk
  obtain ⟨-, -, done, hwaiting, -, u, hu, hsame⟩ := hσ.portTrace (p := p) hreset m
  have hall : presentedBy p s f m = done ++ (σ m).waiting p := hwaiting
  have hcount := hσ.deliveredCount_add (p := p) hreset m
  have hlen : (presentedBy p s f n).length = done.length := by
    rw [hall, List.length_append] at hcount
    omega
  have hsplit := (presentedBy_split p s f hnm).symm.trans hall
  obtain ⟨hdone, hrest⟩ := List.append_inj hsplit hlen
  exact ⟨m, σ m, u, hnm, hσ m, hrest.symm, by rwa [← hdone] at hu, hsame⟩

end Sys2Proof.Machine
end

section
/-! The two engines do not interfere (spec/20_memory.md R57): a run, seen from one engine, is the run of the machine in
which the other engine and its ports are blank and only the moves that concern the one are listed. -/

namespace Sys2Proof.Machine

/-! ## One engine by itself -/

/-- The machine with everything blank that is not the engine `p`'s, and only the moves that concern it. -/
def State.only (s : State) : Port → State
  | .enc =>
    { s with
      cfg := .cw8, dec := .idle, decIn := [], decReady := true, decOut := [], decPast := []
      moves := s.moves.filter (Move.concerns .enc) }
  | .dec =>
    { s with
      enc := .idle, encIn := [], encReady := true, encOut := [], encPast := []
      moves := s.moves.filter (Move.concerns .dec) }

section
variable (s : State) (p : Port)
@[simp] theorem only_moves : (s.only p).moves = s.moves.filter (Move.concerns p) := by cases p <;> rfl
@[simp] theorem only_waiting : (s.only p).waiting p = s.waiting p := by cases p <;> rfl
@[simp] theorem only_ready : (s.only p).ready p = s.ready p := by cases p <;> rfl
@[simp] theorem only_only : (s.only p).only p = s.only p := by cases p <;> simp [State.only]
end

/-- What the encoder and its host see determines the encoder by itself. -/
theorem only_enc_eq_iff {s t : State} :
    s.only .enc = t.only .enc ↔
      s.encView = t.encView ∧ s.moves.filter (Move.concerns .enc) = t.moves.filter (Move.concerns .enc) := by
  simp only [State.only, State.encView, State.mk.injEq, Prod.mk.injEq]
  tauto

/-- What the decoder and its host see determines the decoder by itself. -/
theorem only_dec_eq_iff {s t : State} :
    s.only .dec = t.only .dec ↔
      s.decView = t.decView ∧ s.moves.filter (Move.concerns .dec) = t.moves.filter (Move.concerns .dec) := by
  simp only [State.only, State.decView, State.mk.injEq, Prod.mk.injEq]
  tauto

/-! ## The operations, seen from one engine -/

theorem only_dropWord_same (s : State) (p : Port) : (s.dropWord p).only p = (s.only p).dropWord p := by cases p <;> rfl

theorem only_dropWord_other {p q : Port} (s : State) (h : q ≠ p) : (s.dropWord q).only p = s.only p := by
  cases p <;> cases q
  · exact absurd rfl h
  · rfl
  · rfl
  · exact absurd rfl h

theorem only_present_other (s : State) {w : InWord} {p : Port} (h : w.port ≠ p) : (s.present w).only p = s.only p := by
  cases w <;> cases p
  · exact absurd rfl h
  · rfl
  · rfl
  · exact absurd rfl h

theorem only_setReady_other (s : State) (b : Bool) {p q : Port} (h : q ≠ p) : (s.setReady b q).only p = s.only p := by
  cases q <;> cases p
  · exact absurd rfl h
  · rfl
  · rfl
  · exact absurd rfl h

/-- An engine's instruction is the same instruction of the engine by itself. -/
theorem exec_only {i : Instr} {s t : State} (h : exec i s = .next t) :
    exec i (s.only i.port) = .next (t.only i.port) := by
  cases i <;> obtain rfl := Host.Outcome.next.inj h <;> rfl

/-- The other engine's instruction changes nothing that one engine sees (R21). -/
theorem only_exec_other {i : Instr} {s t : State} {p : Port} (hp : i.port ≠ p) (h : exec i s = .next t) :
    t.only p = s.only p := by
  obtain ⟨hi, r, hr⟩ | ⟨hi, r, hr⟩ := exec_cases i s <;> obtain rfl := Host.Outcome.next.inj (hr.symm.trans h)
  · cases p with
    | enc => exact absurd hi hp
    | dec => rfl
  · cases p with
    | enc => rfl
    | dec => exact absurd hi hp

/-- A word of the port is read the same by the engine by itself. -/
theorem decode_only (s : State) {w : InWord} {p : Port} (hw : w.port = p) :
    decode (s.only p).cfg w = decode s.cfg w := by
  cases w <;> obtain rfl := hw <;> rfl

/-- An engine's turn is its turn by itself. -/
theorem runTaken_only {s t : State} {p : Port} (h : runTaken s (s.fetch p) = .next t) :
    runTaken (s.only p) ((s.only p).fetch p) = .next (t.only p) := by
  obtain ⟨hf, hrun⟩ | ⟨w, i, hf, hi, hrun⟩ | ⟨w, -, -, hrun⟩ := runTaken_fetch_cases s p
  · obtain rfl := Host.Outcome.next.inj (hrun.symm.trans h)
    rw [fetch_eq_none_iff, ← only_ready, ← only_waiting, ← fetch_eq_none_iff] at hf
    rw [hf]
    rfl
  · obtain ⟨hr, hw, -⟩ := of_fetch_eq_some hf
    have hport : w.port = p := port_of_mem_waiting (hw ▸ List.mem_cons_self)
    obtain rfl := (port_of_decode hi).trans hport
    rw [fetch_of_waiting ((only_ready s _).trans hr) ((only_waiting s _).trans hw), ← only_dropWord_same]
    refine (runWord_of_ok ?_).trans (exec_only (hrun.symm.trans h))
    rwa [decode_only _ hport, dropWord_cfg]
  · rw [hrun] at h
    cases h

/-- The other engine's turn changes nothing that one engine sees (R21). -/
theorem only_runTaken_other {s t : State} {p q : Port} (hq : q ≠ p) (h : runTaken s (s.fetch q) = .next t) :
    t.only p = s.only p := by
  obtain ⟨-, hrun⟩ | ⟨w, i, hf, hi, hrun⟩ | ⟨w, -, -, hrun⟩ := runTaken_fetch_cases s q
  · obtain rfl := Host.Outcome.next.inj (hrun.symm.trans h)
    rfl
  · obtain ⟨-, hw, -⟩ := of_fetch_eq_some hf
    have hport : w.port = q := port_of_mem_waiting (hw ▸ List.mem_cons_self)
    have hiport : i.port ≠ p := ((port_of_decode hi).trans hport).trans_ne hq
    rw [only_exec_other hiport (hrun.symm.trans h), only_dropWord_other s hq]
  · rw [hrun] at h
    cases h

/-! ## The step and the run, seen from one engine -/

section
variable {s t : State} {m : Move} {ms : List Move} {p : Port} (hm : s.moves = m :: ms) (h : step s = .next t)
include hm h

/-- A move that concerns the engine is a step of the engine by itself. -/
theorem step_only (hp : m.concerns p = true) : ∃ v, step (s.only p) = .next v ∧ v.only p = t.only p := by
  have hmoves : (s.only p).moves = m :: ms.filter (Move.concerns p) := by
    rw [only_moves, hm, List.filter_cons_of_pos hp]
  cases m with
  | present w =>
    obtain rfl := Host.Outcome.next.inj ((step_of_present hm).symm.trans h)
    refine ⟨_, step_of_present hmoves, ?_⟩
    cases w <;> obtain rfl := of_decide_eq_true hp <;> simp [State.only, InWord.port]
  | ready q b =>
    obtain rfl := Host.Outcome.next.inj ((step_of_ready hm).symm.trans h)
    obtain rfl := of_decide_eq_true hp
    refine ⟨_, step_of_ready hmoves, ?_⟩
    cases q <;> simp [State.only]
  | reset =>
    obtain rfl := Host.Outcome.next.inj ((step_of_reset hm).symm.trans h)
    refine ⟨_, step_of_reset hmoves, ?_⟩
    cases p <;> simp [State.only, State.resetEvent]
  | accept q =>
    obtain rfl := of_decide_eq_true hp
    rw [step, hm] at h
    refine ⟨t.only q, ?_, only_only t q⟩
    rw [step, hmoves]
    have hturn := runTaken_only (s := { s with moves := ms }) h
    cases q <;> exact hturn

/-- A move that does not concern the engine changes nothing that it sees. -/
theorem only_step_other (hp : m.concerns p = false) : t.only p = s.only p := by
  have hdrop : State.only { s with moves := ms } p = s.only p := by
    cases p <;> simp [State.only, hm, hp]
  rw [← hdrop]
  cases m with
  | present w =>
    obtain rfl := Host.Outcome.next.inj ((step_of_present hm).symm.trans h)
    exact only_present_other _ (of_decide_eq_false hp)
  | ready q b =>
    obtain rfl := Host.Outcome.next.inj ((step_of_ready hm).symm.trans h)
    exact only_setReady_other _ b (of_decide_eq_false hp)
  | reset => cases hp
  | accept q =>
    rw [step, hm] at h
    exact only_runTaken_other (of_decide_eq_false hp) h

end

/-- Two runs that start the same for an engine by itself, one of them with only the moves that concern it, end the same
for it. -/
theorem only_eq_of_run (p : Port) : ∀ (ms : List Move) {s x t u : State}, s.moves = ms →
    x.moves = ms.filter (Move.concerns p) → s.only p = x.only p → run ms.length s = .next t →
    run x.moves.length x = .next u → t.only p = u.only p
  | [], s, x, t, u, _, hx, hsx, ht, hu => by
    rw [hx] at hu
    obtain rfl := Host.Outcome.next.inj ht
    obtain rfl := Host.Outcome.next.inj hu
    exact hsx
  | m :: ms, s, x, t, u, hs, hx, hsx, ht, hu => by
    obtain ⟨s', hs', ht⟩ := of_run_succ ht
    have hmoves : s'.moves = ms := by rw [step_moves hs', hs, List.tail_cons]
    cases hp : m.concerns p with
    | false =>
      rw [List.filter_cons_of_neg (by simp [hp])] at hx
      exact only_eq_of_run p ms hmoves hx ((only_step_other hs hs' hp).trans hsx) ht hu
    | true =>
      rw [List.filter_cons_of_pos hp] at hx
      rw [hx] at hu
      obtain ⟨x', hx', hu⟩ := of_run_succ hu
      have hmovesx : x'.moves = ms.filter (Move.concerns p) := by rw [step_moves hx', hx, List.tail_cons]
      obtain ⟨v, hv, hvs⟩ := step_only hs hs' hp
      obtain ⟨v', hv', hvx⟩ := step_only hx hx' hp
      obtain rfl : v = v' := Host.Outcome.next.inj (hv.symm.trans (hsx ▸ hv'))
      exact only_eq_of_run p ms hmoves hmovesx (hvs.symm.trans hvx) ht (by rwa [hmovesx])

/-- The words of an engine by itself fit its ports if those of the machine do. -/
theorem wordsFit_only {s : State} (p : Port) (h : s.WordsFit) : (s.only p).WordsFit := by
  obtain ⟨hwords, hfit⟩ := h
  refine ⟨?_, movesFit_iff.mpr fun w hw => ?_⟩
  · cases p with
    | enc => exact nofun
    | dec => exact hwords
  · rw [only_moves, List.mem_filter] at hw
    obtain ⟨hmem, hport⟩ := hw
    have hw := movesFit_iff.mp hfit w hmem
    cases w <;> obtain rfl := of_decide_eq_true hport <;> exact hw

/-- Runs that start the same for an engine by itself end the same for it: as the run of the engine by itself does. -/
theorem only_eq_of_runs {p : Port} {s s' t t' : State} (hfit : s.WordsFit) (h : run s.moves.length s = .next t)
    (h' : run s'.moves.length s' = .next t') (hs : s.only p = s'.only p) : t.only p = t'.only p := by
  obtain ⟨u, hu⟩ := run_total (s.only p).moves.length (wordsFit_only p hfit)
  have ht := only_eq_of_run p s.moves rfl (only_moves s p) (only_only s p).symm h hu
  rw [hs] at hu
  exact ht.trans (only_eq_of_run p s'.moves rfl (only_moves s' p) (only_only s' p).symm h' hu).symm

/-- Settles O31: both runs complete, and each engine's part of them is its run by itself. -/
theorem enginesDoNotInterfere : Obligations.EnginesDoNotInterfere := by
  intro s s' hfit hfit'
  obtain ⟨t, ht⟩ := run_total s.moves.length hfit
  obtain ⟨t', ht'⟩ := run_total s'.moves.length hfit'
  refine ⟨t, t', ht, ht', by rw [run_moves ht, List.drop_length], by rw [run_moves ht', List.drop_length],
    fun hview hmoves => ?_, fun hview hmoves => ?_⟩
  · exact (only_enc_eq_iff.mp (only_eq_of_runs hfit ht ht' (only_enc_eq_iff.mpr ⟨hview, hmoves⟩))).1
  · exact (only_dec_eq_iff.mp (only_eq_of_runs hfit ht ht' (only_dec_eq_iff.mpr ⟨hview, hmoves⟩))).1

end Sys2Proof.Machine
end

section
/-! Messages through the ports (spec/44_message_operations.md R179, R182 to R184, spec/30_encoding.md R81 to R85): the
host's moves for a message execute it, and its answer is read from what has been emitted. -/

namespace Sys2Proof.Machine

/-! ## The host's moves -/

/-- A word presented on an empty port and taken off it again leaves the state as it was. -/
theorem dropWord_present {s : State} {w : InWord} {p : Port} (hp : w.port = p) (h : s.waiting p = []) :
    (s.present w).dropWord p = s := by
  obtain ⟨cfg, enc, dec, encIn, decIn, encReady, decReady, encOut, decOut, encPast, decPast, moves⟩ := s
  cases w with
  | enc w =>
    obtain rfl := hp
    obtain rfl : encIn = [] := List.map_eq_nil_iff.mp h
    rfl
  | dec w =>
    obtain rfl := hp
    obtain rfl : decIn = [] := List.map_eq_nil_iff.mp h
    rfl

/-- An instruction presented and accepted on an empty port is executed, if the output is taken (R56, R58). -/
theorem run_present_accept {s t : State} {i : Instr} {ms : List Move} (n : Nat)
    (hm : s.moves = .present (encode s.cfg i) :: .accept i.port :: ms) (hwf : i.wf s.cfg = true)
    (hw : s.waiting i.port = []) (hr : s.ready i.port = true) (ht : exec i { s with moves := ms } = .next t) :
    run (n + 2) s = run n t := by
  obtain ⟨hport, -⟩ := encode_port_fits hwf
  have hpresent : step s = .next (s.dropMove.present (encode s.cfg i)) := by
    rw [step_of_present hm, dropMove_of_cons hm]
  have hmoves : (s.dropMove.present (encode s.cfg i)).moves = .accept i.port :: ms := by
    rw [step_moves hpresent, hm, List.tail_cons]
  have hdrop : { s.dropMove.present (encode s.cfg i) with moves := ms } =
      State.present { s with moves := ms } (encode s.cfg i) := by
    cases encode s.cfg i <;> rfl
  have hw' : State.waiting { s with moves := ms } i.port = [] := (waiting_replace_moves s ms _).trans hw
  have hr' : State.ready { s with moves := ms } i.port = true := (ready_replace_moves s ms _).trans hr
  have hfetch : (State.present { s with moves := ms } (encode s.cfg i)).fetch i.port =
      some (encode s.cfg i, { s with moves := ms }) := by
    rw [fetch_of_waiting (w := encode s.cfg i) (ws := []), dropWord_present hport hw']
    · rw [present_ready, hr']
    · rw [present_waiting, hw', wordsOf_present_own hport, wordsOf_nil, List.nil_append]
  have haccept : step (s.dropMove.present (encode s.cfg i)) = .next t :=
    (step_of_accept_some hmoves (by rw [hdrop]; exact hfetch)).trans
      ((runWord_of_ok (s := { s with moves := ms }) (decode_encode hwf)).trans ht)
  rw [run_succ hpresent, run_succ haccept]

theorem hostMoves_cons (cfg : Config) (i : Instr) (is : List Instr) :
    hostMoves cfg (i :: is) = .present (encode cfg i) :: .accept i.port :: hostMoves cfg is := rfl

/-- Instructions put through empty ports whose outputs are taken are executed in order (R56). -/
theorem run_hostMoves {cfg : Config} (is : List Instr) : ∀ {s : State}, s.cfg = cfg → s.moves = hostMoves cfg is →
    (∀ i ∈ is, i.wf cfg = true ∧ s.waiting i.port = [] ∧ s.ready i.port = true) →
    run (hostMoves cfg is).length s = execAll is { s with moves := [] } := by
  induction is with
  | nil =>
    intro s _ hm _
    have hnone : s.moves = [] := hm
    rw [← hnone]
    rfl
  | cons i is ih =>
    intro s hcfg hm his
    obtain rfl := hcfg
    obtain ⟨⟨hwf, hw, hr⟩, his⟩ := List.forall_mem_cons.mp his
    obtain ⟨t, ht⟩ := exec_total i { s with moves := hostMoves s.cfg is }
    obtain ⟨hcfg, hwait, hready, hmoves, -⟩ := exec_frame ht
    have his' : ∀ j ∈ is, j.wf s.cfg = true ∧ t.waiting j.port = [] ∧ t.ready j.port = true := fun j hj => by
      rw [hwait, hready, waiting_replace_moves, ready_replace_moves]
      exact his j hj
    rw [hostMoves_cons, List.length_cons, List.length_cons, run_present_accept _ hm hwf hw hr ht, ih hcfg hmoves his']
    exact (execAll_cons_of_next is (exec_replace_moves [] ht)).symm

/-! ## Reading the answers -/

/-- The beats of `ENC_OUT` that carry a string (R182). -/
def stringBeats (cs : List Byte) : List EncBeat := cs.map .sym ++ [.endMsg]

/-- The beats of `DEC_OUT` that carry the result of `Decode`, the void bytes of a failed message among them (R181). -/
def resultBeats (a : Alph) (cs : List Nat) : List DecBeat :=
  (decodeMsg a (validPrefix a cs)).bytes.map .byte ++ [(decodeMsg a cs).closing]

theorem encResultsFrom_stringBeats (cs : List Byte) (rest : List EncBeat) : ∀ cur,
    encResultsFrom cur (stringBeats cs ++ rest) = (cur ++ cs) :: encResults rest := by
  induction cs with
  | nil =>
    intro cur
    rw [List.append_nil]
    rfl
  | cons c cs ih => exact fun cur => (ih (cur ++ [c])).trans (by rw [List.append_assoc]; rfl)

/-- The characters between two `END` beats are one result (R182). -/
theorem encResults_stringBeats (cs : List Byte) (rest : List EncBeat) :
    encResults (stringBeats cs ++ rest) = cs :: encResults rest := encResultsFrom_stringBeats cs rest []

theorem decResultsFrom_bytes (bs : List Byte) (rest : List DecBeat) : ∀ cur,
    decResultsFrom cur (bs.map .byte ++ rest) = decResultsFrom (cur ++ bs) rest := by
  induction bs with
  | nil =>
    intro cur
    rw [List.append_nil]
    rfl
  | cons b bs ih => exact fun cur => (ih (cur ++ [b])).trans (by rw [List.append_assoc]; rfl)

/-- The beats up to a closing beat are one result, its bytes void where it is a failure (R124, R182). -/
theorem decResults_resultBeats (a : Alph) (cs : List Nat) (rest : List DecBeat) :
    decResults (resultBeats a cs ++ rest) = decodeMsg a cs :: decResults rest := by
  rw [decResults, resultBeats, List.append_assoc, decResultsFrom_bytes]
  cases hr : decodeMsg a cs with
  | ok out =>
    rw [decodeMsg_validPrefix hr]
    rfl
  | err c => rfl

/-! ## Pseudo-instructions -/

/-- What a pseudo-instruction emits on `ENC_OUT`. -/
def encPiece : PseudoInstr → List EncBeat
  | .encode bs => stringBeats (encodeMsg .std bs)
  | .encodeHex bs => stringBeats (encodeMsg .hex bs)
  | .decode _ => []
  | .decodeHex _ => []

/-- What a pseudo-instruction emits on `DEC_OUT`. -/
def decPiece : PseudoInstr → List DecBeat
  | .encode _ => []
  | .encodeHex _ => []
  | .decode cs => resultBeats .std cs
  | .decodeHex cs => resultBeats .hex cs

/-- A pseudo-instruction emits on its own engine's stream only. -/
theorem encPiece_eq_nil {p : PseudoInstr} (h : p.port = .dec) : encPiece p = [] := by
  cases p with
  | encode bs => cases h
  | encodeHex bs => cases h
  | decode cs => rfl
  | decodeHex cs => rfl

theorem decPiece_eq_nil {p : PseudoInstr} (h : p.port = .enc) : decPiece p = [] := by
  cases p with
  | encode bs => rfl
  | encodeHex bs => rfl
  | decode cs => cases h
  | decodeHex cs => cases h

/-- The engine of a port is idle (R46). -/
abbrev State.IdleAt (s : State) : Port → Prop
  | .enc => s.enc = .idle
  | .dec => s.dec = .idle

theorem idleAt_of_idle {s : State} (h : s.Idle) (p : Port) : s.IdleAt p := by
  obtain ⟨henc, hdec⟩ := h
  cases p with
  | enc => exact henc
  | dec => exact hdec

/-- A pseudo-instruction from an idle engine emits its piece and leaves everything else as it was (R180, R181). -/
theorem execAll_expandPseudo (p : PseudoInstr) {s : State} (h : s.IdleAt p.port) :
    execAll (expandPseudo p) s =
      .next { s with encOut := s.encOut ++ encPiece p, decOut := s.decOut ++ decPiece p } := by
  cases p with
  | encode bs => simp [expandPseudo, execAll_encBeats _ bs h, encPiece, decPiece, stringBeats]
  | encodeHex bs => simp [expandPseudo, execAll_encBeats _ bs h, encPiece, decPiece, stringBeats]
  | decode cs => simp [expandPseudo, execAll_decBeats _ cs h, encPiece, decPiece, resultBeats]
  | decodeHex cs => simp [expandPseudo, execAll_decBeats _ cs h, encPiece, decPiece, resultBeats]

/-- Message after message, in any order, from idle engines (R184). -/
theorem execAll_flatMap_expandPseudo (ps : List PseudoInstr) : ∀ {s : State}, s.Idle →
    execAll (ps.flatMap expandPseudo) s =
      .next { s with encOut := s.encOut ++ ps.flatMap encPiece, decOut := s.decOut ++ ps.flatMap decPiece } := by
  induction ps with
  | nil =>
    intro s _
    simp [execAll]
  | cons p ps ih =>
    intro s hidle
    rw [List.flatMap_cons, execAll_append _ _ _ _ (execAll_expandPseudo p (idleAt_of_idle hidle p.port)),
      ih (by exact hidle)]
    simp only [List.flatMap_cons, List.append_assoc]

/-- The results read from the pieces of encoding messages are their encodings in order (R182). -/
theorem encResults_flatMap_encPiece (ps : List PseudoInstr) :
    encResults (ps.flatMap encPiece) = ps.filterMap encAnswer := by
  induction ps with
  | nil => rfl
  | cons p ps ih =>
    cases p <;> simp [encPiece, encAnswer, encResults_stringBeats, ih, List.filterMap_cons]

/-- The results read from the pieces of decoding messages are their decodings in order (R182). -/
theorem decResults_flatMap_decPiece (ps : List PseudoInstr) :
    decResults (ps.flatMap decPiece) = ps.filterMap decAnswer := by
  induction ps with
  | nil => rfl
  | cons p ps ih =>
    cases p <;> simp [decPiece, decAnswer, decResults_resultBeats, ih, List.filterMap_cons]

/-- Settles O46: the moves execute the messages one after another, and the results are read from their pieces. -/
theorem observedResultsAreEncodeAndDecode : Obligations.ObservedResultsAreEncodeAndDecode := by
  intro cfg ps hwf ms
  have hms : ms = hostMoves cfg (ps.flatMap expandPseudo) := by simp [ms, hostMoves, List.flatMap_assoc]
  have hports : ∀ i ∈ ps.flatMap expandPseudo, i.wf cfg = true ∧
      State.waiting { State.resetWith cfg with moves := ms } i.port = [] ∧
      State.ready { State.resetWith cfg with moves := ms } i.port = true := fun i hi => by
    obtain ⟨p, hp, hi⟩ := List.mem_flatMap.mp hi
    rw [waiting_replace_moves, ready_replace_moves]
    exact ⟨hwf p hp i hi, by cases i.port <;> rfl, by cases i.port <;> rfl⟩
  have hrun := run_hostMoves (ps.flatMap expandPseudo) (s := { State.resetWith cfg with moves := ms }) rfl hms
    hports
  refine ⟨_, ((congrArg (run · _) (congrArg List.length hms)).trans hrun).trans
    (execAll_flatMap_expandPseudo ps ⟨rfl, rfl⟩), ⟨⟨rfl, rfl⟩, rfl, rfl, rfl⟩, ?_, ?_⟩
  · exact encResults_flatMap_encPiece ps
  · exact decResults_flatMap_decPiece ps

/-! ## The wrapper -/

/-- The beats of a pseudo-instruction are those of its engine (R82 to R85). -/
theorem port_of_mem_expandPseudo {p : PseudoInstr} {i : Instr} (h : i ∈ expandPseudo p) : i.port = p.port := by
  cases p <;> simp only [expandPseudo, encBeats, decBeats, List.mem_append, List.mem_map, List.mem_singleton] at h <;>
    obtain ⟨_, -, rfl⟩ | rfl := h <;> rfl

/-- What is presented for a pseudo-instruction is well-formed, whatever its characters (R235). -/
theorem wf_of_mem_presentable {cfg : Config} {p : PseudoInstr} {i : Instr}
    (h : i ∈ expandPseudo (p.presentable cfg standIn)) : i.wf cfg = true := by
  have hchar : ∀ c, decide (presentChar cfg standIn c < 2 ^ cfg.cw) = true := fun c =>
    decide_eq_true (presentChar_lt (by decide))
  cases p <;>
    simp only [PseudoInstr.presentable, expandPseudo, encBeats, decBeats, List.map_map, List.mem_append, List.mem_map,
      List.mem_singleton] at h <;>
    obtain ⟨c, -, rfl⟩ | rfl := h
  · rfl
  · rfl
  · rfl
  · rfl
  · exact hchar c
  · exact decide_eq_true (Nat.two_pow_pos _)
  · exact hchar c
  · exact decide_eq_true (Nat.two_pow_pos _)

@[simp] theorem presentable_port (cfg : Config) (x : Nat) (p : PseudoInstr) : (p.presentable cfg x).port = p.port := by
  cases p <;> rfl

/-- The wrapper reads the source's function from the piece of what it presented (R82, R84, R235). -/
theorem readPseudo_pieces (cfg : Config) (p : PseudoInstr) :
    readPseudo cfg p (encPiece (p.presentable cfg standIn)) (decPiece (p.presentable cfg standIn)) =
      [pseudoValue p] := by
  obtain ⟨-, hpad, hinvalid⟩ := standIn_allowed
  have henc : ∀ cs, encResults (stringBeats cs) = [cs] := fun cs => by
    simpa [encResults, encResultsFrom] using encResults_stringBeats cs []
  have hdec : ∀ a cs, decResults (resultBeats a cs) = [decodeMsg a cs] := fun a cs => by
    simpa [decResults, decResultsFrom] using decResults_resultBeats a cs []
  cases p with
  | encode bs => simp [readPseudo, PseudoInstr.presentable, encPiece, henc, pseudoValue]
  | encodeHex bs => simp [readPseudo, PseudoInstr.presentable, encPiece, henc, pseudoValue]
  | decode cs =>
    simp [readPseudo, PseudoInstr.presentable, decPiece, hdec, reportOriginal_decodeMsg .std hpad (hinvalid .std),
      pseudoValue]
  | decodeHex cs =>
    simp [readPseudo, PseudoInstr.presentable, decPiece, hdec, reportOriginal_decodeMsg .hex hpad (hinvalid .hex),
      pseudoValue]

/-- An engine that is free for a message is idle, no word waits on its port, and its output is taken. -/
theorem freeFor_iff {s : State} {p : Port} :
    s.FreeFor p ↔ s.IdleAt p ∧ s.waiting p = [] ∧ s.ready p = true := by
  cases p <;> simp

/-- Settles O51: the moves execute what is presented on the free engine, and the wrapper reads its piece. -/
theorem wrapperAnswersEveryOperation : Obligations.WrapperAnswersEveryOperation := by
  refine ⟨fun _ => rfl, fun p s hfree => ?_⟩
  obtain ⟨hidle, hw, hr⟩ := freeFor_iff.mp hfree
  let q := p.presentable s.cfg standIn
  let ms := hostMoves s.cfg (expandPseudo q)
  have hports : ∀ i ∈ expandPseudo q, i.wf s.cfg = true ∧ State.waiting { s with moves := ms } i.port = [] ∧
      State.ready { s with moves := ms } i.port = true := fun i hi => by
    have hport : i.port = p.port := (port_of_mem_expandPseudo hi).trans (presentable_port _ _ p)
    rw [waiting_replace_moves, ready_replace_moves, hport]
    exact ⟨wf_of_mem_presentable hi, hw, hr⟩
  have hidle' : State.IdleAt { s with moves := [] } q.port := by cases p <;> exact hidle
  refine ⟨ms, encPiece q, decPiece q, rfl, ?_, readPseudo_pieces s.cfg p, ?_, ?_⟩
  · exact (run_hostMoves _ (s := { s with moves := ms }) rfl rfl hports).trans (execAll_expandPseudo q hidle')
  · exact fun hp => decPiece_eq_nil ((presentable_port _ _ p).trans hp)
  · exact fun hp => encPiece_eq_nil ((presentable_port _ _ p).trans hp)

end Sys2Proof.Machine
end
